-- ==== Sys2Proof/Word.lean ====
section
/-! DEFINITION. The bit patterns of NSE-LTE (spec 00_scope.md R7, R8). Nothing is computed here: the
arithmetic discipline of 40_arithmetic.md stands in Machine/Arith.lean. -/

namespace Sys2Proof

/-- An element of `ROT`, `IV` or `DK`: `EW` = 8 bits (R7). -/
abbrev Byte := BitVec 8

/-- A ciphertext element, a widened value, an accumulator and the host port's data: `W` = `DW` = 64
bits (R7, R8, R100). Its signed value `s(w)` is `BitVec.toInt`, its unsigned value `u(w)` is
`BitVec.toNat`. -/
abbrev Word := BitVec 64

/-- A length register: `LENW` = 32 bits, unsigned (R7, 10_state.md R25, R26). -/
abbrev Len := BitVec 32

/-- A command word: the value of bits 31:0 written to `CMD` (30_encoding.md R80). -/
abbrev CommandWord := BitVec 32

end Sys2Proof
end

