-- ==== Sys2Proof/Syntax.lean ====
section
/-! DEFINITION. The command set of NSE-LTE, version 1 (spec 00_scope.md R2, 30_encoding.md R81): one
constructor per row of spec/opcode_table.json. -/

namespace Sys2Proof

/-- The four commands (30_encoding.md R81). A command has no encoded operand (R82): its operands are the
length registers and the buffers. -/
inductive Instr where
  /-- `VENC`, 0x10: the Validation Gate, encrypt path (41_validation_gate.md R133). -/
  | venc
  /-- `VDEC`, 0x11: the Validation Gate, decrypt path (41_validation_gate.md R134). -/
  | vdec
  /-- `ENC`, 0x12: gate, then the forward transform (42_forward_transform.md R142). -/
  | enc
  /-- `DEC`, 0x13: gate, then the inverse transform (43_inverse_transform.md R152). -/
  | dec
  deriving DecidableEq, Repr

end Sys2Proof
end

