-- ==== Sys2Proof/WellFormed.lean ====
section
/-! DEFINITION. Format `C`, the one command format (spec 30_encoding.md R80), and the two checks a command
word must pass (R84). An `Instr` carries no field, so there is nothing to check on it; what can be ill
formed is the pair of fields of a command word. -/

namespace Sys2Proof

/-- The fields of a command word (30_encoding.md R80): `RSV` in bits 31:8, `OP` in bits 7:0. -/
structure Command where
  rsv : BitVec 24
  op  : BitVec 8
  deriving DecidableEq, Repr

/-- The reserved field must be written as zero (30_encoding.md R80, R84, 10_state.md R23). -/
def Command.reservedZero (c : Command) : Bool :=
  c.rsv == 0#24

/-- The opcode must be one of the four of the opcode map (30_encoding.md R81, R84). -/
def Command.opcodeLegal (c : Command) : Bool :=
  c.op == 0x10#8 || c.op == 0x11#8 || c.op == 0x12#8 || c.op == 0x13#8

/-- A legal command (30_encoding.md R84: every other word is illegal). -/
def Command.wellFormed (c : Command) : Bool :=
  c.reservedZero && c.opcodeLegal

end Sys2Proof
end

