-- ==== Sys2Proof/Decode.lean ====
section
/-! DEFINITION. The decoder, total on every 32-bit word and rejecting by name, and the encoder (spec
30_encoding.md R80, R81, R84). -/

namespace Sys2Proof

/-- Why a word is no command (30_encoding.md R84). Both reasons end alike, in `BAD_CMD`. -/
inductive DecodeError where
  /-- `RSV` is not zero. -/
  | reservedNotZero
  /-- `RSV` is zero and `OP` is none of 0x10 to 0x13. -/
  | unknownOpcode
  deriving DecidableEq, Repr

/-- The fields of a word (30_encoding.md R80). -/
def Command.ofWord (w : CommandWord) : Command :=
  { rsv := w.extractLsb' 8 24, op := w.extractLsb' 0 8 }

/-- The word of two fields (30_encoding.md R80). -/
def Command.toWord (c : Command) : CommandWord :=
  c.rsv ++ c.op

/-- The opcode map, read from bits to commands (30_encoding.md R81). -/
def decodeOpcode (op : BitVec 8) : Option Instr :=
  if op = 0x10#8 then some .venc
  else if op = 0x11#8 then some .vdec
  else if op = 0x12#8 then some .enc
  else if op = 0x13#8 then some .dec
  else none

/-- The decoder (30_encoding.md R80, R81, R84). -/
def decode (w : CommandWord) : Except DecodeError Instr :=
  let c := Command.ofWord w
  if c.rsv = 0#24 then
    match decodeOpcode c.op with
    | some i => .ok i
    | none => .error .unknownOpcode
  else .error .reservedNotZero

/-- The opcode map, read from commands to bits (30_encoding.md R81). -/
def Instr.opcode : Instr → BitVec 8
  | .venc => 0x10#8
  | .vdec => 0x11#8
  | .enc => 0x12#8
  | .dec => 0x13#8

/-- The fields of a command's word (30_encoding.md R80, R81). -/
def Instr.toCommand (i : Instr) : Command :=
  { rsv := 0#24, op := i.opcode }

/-- The encoder: the command word of a command (30_encoding.md R81). -/
def encode (i : Instr) : CommandWord :=
  i.toCommand.toWord

/-- `OP[0]`, the direction: does the command take the decrypt path (30_encoding.md R81)? -/
def Instr.decryptPath : Instr → Bool
  | .venc => false
  | .vdec => true
  | .enc => false
  | .dec => true

/-- `OP[1]`: does the transform run after the gate (30_encoding.md R81)? -/
def Instr.runsTransform : Instr → Bool
  | .venc => false
  | .vdec => false
  | .enc => true
  | .dec => true

/-- The command my decoder reads from the lowest `nbits` bits of `w`, the bits above them zero: a command
is always one 32-bit word (30_encoding.md R80), and a word has no byte order (20_memory.md R55). -/
def decodeTableWord (nbits w : Nat) : Option Instr :=
  match decode (BitVec.ofNat 32 (w % 2 ^ nbits)) with
  | .ok i => some i
  | .error _ => none

end Sys2Proof
end

