-- ==== Sys2Proof/Machine/Arith.lean ====
section
/-! DEFINITION. The fixed-width arithmetic discipline (spec 40_arithmetic.md): the primitives the two
engines use, and no other (R111). Each converts to integers, computes exactly and narrows at the end. -/

namespace Sys2Proof.Machine

/-- `word(z)`: the pattern whose unsigned value is `z mod 2^64` (R100). -/
def word (z : Int) : Word :=
  BitVec.ofInt 64 z

/-- `asSigned(b)` (R101). -/
def asSigned (b : Byte) : Int :=
  if b.toNat ≤ 127 then (b.toNat : Int) else (b.toNat : Int) - 256

/-- `asUnsigned(v)`, for `v` in −128..127 (R101). -/
def asUnsigned (v : Int) : Byte :=
  if 0 ≤ v then BitVec.ofNat 8 v.toNat else BitVec.ofNat 8 (v + 256).toNat

/-- `sext_64(b) = word(asSigned(b))` (R102). -/
def sext64 (b : Byte) : Word :=
  word (asSigned b)

/-- `wadd` (R103): overflow wraps silently. -/
def wadd (a b : Word) : Word :=
  word (a.toInt + b.toInt)

/-- `wsub` (R104): overflow wraps silently. -/
def wsub (a b : Word) : Word :=
  word (a.toInt - b.toInt)

/-- `wmul` (R105): the low 64 bits of the product. -/
def wmul (a b : Word) : Word :=
  word (a.toInt * b.toInt)

/-- `dbl`, the document's `doubled`: `a[62:0] ++ 0b0` (R106). -/
def dbl (a : Word) : Word :=
  a.extractLsb' 0 63 ++ 0#1

/-- `sdiv` (R107): signed, truncating toward zero. A zero divisor has no value (R108): the divisor's being
non-zero is an argument. `sdiv INT64_MIN (word (-1))` is the wrapped quotient INT64_MIN (R109). -/
def sdiv (a b : Word) (_divisor : b ≠ 0#64) : Word :=
  word (Int.tdiv a.toInt b.toInt)

/-- `trunc8`, the document's `truncateToSigned8`: `a[7:0]` (R110). -/
def trunc8 (a : Word) : Byte :=
  a.extractLsb' 0 8

/-- `zext_64(v)` (00_scope.md R9). -/
def zext64 {width : Nat} (v : BitVec width) : Word :=
  v.setWidth 64

/-- `Σ`: the `wadd`-sum from the zero word (00_scope.md R9, R113). -/
def wsum (xs : List Word) : Word :=
  xs.foldl wadd 0#64

end Sys2Proof.Machine
end

