-- ==== Sys2Proof/Config.lean ====
section
/-! DEFINITION. What an implementation fixes, and the free values: what the spec leaves unspecified and a
proof can therefore see nothing of. -/

namespace Sys2Proof

/-- NMAX, the number of elements each buffer holds (spec 00_scope.md R7, decision D5): an OPEN parameter,
1 ≤ NMAX ≤ 2^32 − 1, readable in `CAPACITY`. Every meaning reads the register `CAPACITY`, so the model
covers every NMAX; this constant is only the value `State.reset` puts there.
DESIGN CHOICE (log 1), unsafe: 512 is the value the spec suggests. -/
def Config.nmax : Len := 512#32

/-- The content of an accumulator after a command has ended: "unspecified and unobservable" (spec
10_state.md R32, 93_implementation_defined.md U5). A free value, indexed by the number of values drawn
so far (log 3), safe. -/
opaque Config.leftover : Nat → BitVec 64

/-- The content of a buffer element that was never written since reset, as a host read sees it: "an
unspecified value" (spec 20_memory.md R52, 93_implementation_defined.md U3). A free value, indexed by
the number of responses the host has received so far, so that two reads may differ (log 5). -/
opaque Config.neverWritten : Nat → BitVec 64

end Sys2Proof
end

