-- ==== Sys2Proof/Machine/State.lean ====
section
/-! DEFINITION. All the state of one NSE-LTE instance (spec 10_state.md R20), as plain data, with the two
agents that move beside it: the host's script and log, and the schedule. `State.reset` is the machine
right after reset (R36). -/

namespace Sys2Proof.Machine

/-- The five address spaces (20_memory.md R50). -/
inductive Space where
  | reg | rot | iv | dk | ct
  deriving DecidableEq, Repr

/-- The nine control registers (10_state.md R23 to R31). -/
inductive RegName where
  | cmd | status | dataLen | ivLen | errCode | errBuf | errIvLen | errDataLen | capacity
  deriving DecidableEq, Repr

/-- A buffer: the elements that have been written since reset, each under its index, the indices strictly
rising (`bufWf`). An index that is not listed holds no value: its element was never written
(10_state.md R21, R22, R36; 93_implementation_defined.md U3; log 4). -/
abbrev Buffer (width : Nat) := List (Nat × BitVec width)

/-- The canonical form of a buffer: indices strictly rising, so that equal contents are equal data (log 4). -/
abbrev bufWf {width : Nat} (b : Buffer width) : Prop :=
  (b.map Prod.fst).Pairwise (· < ·)

/-- The four vector buffers (10_state.md R21, R22). The byte buffers are lists of `Host.Cell`. -/
structure Memory where
  rot : List Host.Cell
  iv  : List Host.Cell
  dk  : List Host.Cell
  ct  : Buffer 64
  deriving DecidableEq, Repr

/-- All four buffers are in canonical form. -/
abbrev Memory.wf (m : Memory) : Prop :=
  bufWf m.rot ∧ bufWf m.iv ∧ bufWf m.dk ∧ bufWf m.ct

/-- The four buffers with no element written (10_state.md R36). -/
def Memory.empty : Memory :=
  { rot := [], iv := [], dk := [], ct := [] }

/-- The control registers, space `REG` (10_state.md R23 to R31). -/
structure Regs where
  /-- `CMD` (R23). -/
  cmd        : CommandWord
  /-- `STATUS` (R24): bit 0 `BUSY`, bit 1 `DONE`, bit 2 `ERR`. -/
  status     : BitVec 3
  /-- `DATA_LEN` (R25). -/
  dataLen    : Len
  /-- `IV_LEN` (R26). -/
  ivLen      : Len
  /-- `ERR_CODE` (R27). -/
  errCode    : BitVec 3
  /-- `ERR_BUF` (R28). -/
  errBuf     : BitVec 2
  /-- `ERR_IVLEN` (R29). -/
  errIvLen   : Len
  /-- `ERR_DATALEN` (R30). -/
  errDataLen : Len
  /-- `CAPACITY`, constant NMAX (R31). -/
  capacity   : Len
  deriving DecidableEq, Repr

/-- The phases of the engine's sequencer (10_state.md R33), and idle (R36). -/
inductive Phase where
  | idle | decode | gate | accumulate | guard | emit | finish
  deriving DecidableEq, Repr

/-- The internal registers of the engine: the scalar accumulators (10_state.md R32) and the sequencer
(R33). The host can read and write none of them. -/
structure Engine where
  s1    : Word
  s2    : Word
  s3    : Word
  s1sq  : Word
  phase : Phase
  /-- The element index, "counts from 0 to n−1"; it never wraps (R33). -/
  index : Nat
  deriving DecidableEq, Repr

/-- A host transaction (20_memory.md R51). A space is "a small unsigned number" without a width: a `Nat`
(log 14). -/
inductive Transaction where
  | hostRead (space : Nat) (index : BitVec 32)
  | hostWrite (space : Nat) (index : BitVec 32) (data : Word)
  deriving DecidableEq, Repr

/-- The response to a transaction (20_memory.md R51). -/
inductive Response where
  /-- `OK(data)`, to a read. -/
  | okData (data : Word)
  /-- `OK`, to a write. -/
  | ok
  /-- `ERR`: the access was refused (R54). -/
  | err
  deriving DecidableEq, Repr

/-- One thing the host does: a transaction, with the response the script's author states for it if any
(30_encoding.md R86), or `WAIT` (R87), which polls `STATUS` until `BUSY` reads 0. -/
inductive HostOp where
  | tx (t : Transaction) (expect : Option Response)
  | wait
  deriving DecidableEq, Repr

/-- One answered transaction, with the response the script stated for it. -/
structure LogEntry where
  tx       : Transaction
  response : Response
  expect   : Option Response
  deriving DecidableEq, Repr

/-- Whose move is next: the host's, the engine's, or the environment's reset (00_scope.md R11). -/
inductive Turn where
  | host | engine | reset
  deriving DecidableEq, Repr

/-- The host, as plain data: what it has still to do, who moves when, and what it was answered, the
newest entry first (10_state.md R35, 70_reset_and_hazards.md R206, R207; logs 7 and 8). -/
structure HostAgent where
  script   : List HostOp
  /-- The moves to come. Once it is used up the engine moves whenever it can, and else the host: the
  engine's step is never put off for ever (R206). -/
  schedule : List Turn
  log      : List LogEntry
  deriving DecidableEq, Repr

/-- The whole state. -/
structure State where
  /-- The control registers. -/
  regs  : Regs
  /-- The vector buffers. -/
  mem   : Memory
  /-- The engine's internal registers. -/
  eng   : Engine
  /-- The host and the schedule. -/
  host  : HostAgent
  /-- The MODEL's own field: how many free values the engine has drawn (log 3). -/
  draws : Nat
  deriving DecidableEq, Repr

/-- Why the machine stops with a fault. -/
inductive Fault where
  /-- The engine's `MemRead` or `MemWrite` was called with an index at or above NMAX. Raised by `memReadByte`,
  `memReadWord` and the sequencer's writes. The spec says it cannot happen (20_memory.md R59); no step
  of this model raises it. Safe (log 15). -/
  | engineAccessOutOfRange (space : Space) (index : Nat)
  deriving DecidableEq, Repr

/-- Why the model gives no next state. -/
inductive Refusal where
  /-- The instruction has no meaning in this model yet. Raised by an arm of `exec` only. Safe. -/
  | notModelled (mnemonic : String)
  /-- `ENC` or `DEC` reads a buffer element that was never written since reset: such a command "has no
  defined result", and the spec's treatment of it is `refuse` (70_reset_and_hazards.md R203,
  93_implementation_defined.md U3). Raised by `memReadByte` and `memReadWord`. Safe (log 4). -/
  | neverWritten (space : Space) (index : Nat)
  deriving DecidableEq, Repr

/-- The control registers after reset, in a block whose buffers hold `nmax` elements (10_state.md R36). -/
def Regs.reset (nmax : Len) : Regs :=
  { cmd := 0#32, status := 0b000#3, dataLen := 0#32, ivLen := 0#32, errCode := 0#3, errBuf := 0#2,
    errIvLen := 0#32, errDataLen := 0#32, capacity := nmax }

/-- The engine after reset: the sequencer idle (10_state.md R36). The accumulators are "unspecified,
unobservable" there; DESIGN CHOICE 0 for them and for the index (logs 2 and 10), unsafe. -/
def Engine.reset : Engine :=
  { s1 := 0#64, s2 := 0#64, s3 := 0#64, s1sq := 0#64, phase := .idle, index := 0 }

/-- A host with nothing to do (log 7). -/
def HostAgent.idle : HostAgent :=
  { script := [], schedule := [], log := [] }

/-- The state after reset of a block whose buffers hold `nmax` elements (10_state.md R36), the host idle. -/
def State.resetWith (nmax : Len) : State :=
  { regs := Regs.reset nmax, mem := Memory.empty, eng := Engine.reset, host := HostAgent.idle, draws := 0 }

/-- The machine right after reset (10_state.md R36), NMAX as `Config.nmax` (log 1). -/
def State.reset : State :=
  State.resetWith Config.nmax

end Sys2Proof.Machine
end

