-- ==== Sys2Proof/Machine/Flags.lean ====
section
/-! DEFINITION. The flags of the block are the three bits of `STATUS` and there is no other (spec
10_state.md R24, 40_arithmetic.md R111); with them the engine errors and their record's codes
(60_exceptions.md R171). -/

namespace Sys2Proof.Machine

/-- `IDLE`: no command since reset (10_state.md R24). -/
def statusIdle : BitVec 3 := 0b000#3

/-- `BUSY`: a command was started and has not ended (10_state.md R24). -/
def statusBusy : BitVec 3 := 0b001#3

/-- `DONE`: the last command ended with success (10_state.md R24). -/
def statusDone : BitVec 3 := 0b010#3

/-- `ERROR`: the last command ended with an engine error (10_state.md R24). -/
def statusError : BitVec 3 := 0b100#3

/-- `STATUS.BUSY`, bit 0 (10_state.md R24). -/
def busy (s : State) : Bool :=
  s.regs.status.getLsbD 0

/-- The document's `bufferName` (10_state.md R28, 60_exceptions.md R172). -/
inductive BufferName where
  /-- "Data", the encrypt path. -/
  | data
  /-- "Ciphertext", the decrypt path. -/
  | ciphertext
  deriving DecidableEq, Repr

/-- The code of a buffer name in `ERR_BUF` (10_state.md R28). -/
def bufferCode : BufferName → BitVec 2
  | .data => 1#2
  | .ciphertext => 2#2

/-- The engine errors, with what is recorded for each (60_exceptions.md R171). -/
inductive EngineError where
  | dataLength (buffer : BufferName)
  | ivLengthMismatch (ivLength dataLength : Len)
  | zeroDivisor
  | badCmd
  | capacity
  deriving DecidableEq, Repr

/-- `ERR_CODE` of an engine error (10_state.md R27, 60_exceptions.md R171). -/
def errorCode : EngineError → BitVec 3
  | .dataLength _ => 1#3
  | .ivLengthMismatch _ _ => 2#3
  | .zeroDivisor => 3#3
  | .badCmd => 4#3
  | .capacity => 5#3

/-- `ERR_BUF` after an engine error: zero but for `DATA_LENGTH` (60_exceptions.md R171, R178). -/
def errorBuf : EngineError → BitVec 2
  | .dataLength b => bufferCode b
  | .ivLengthMismatch _ _ => 0#2
  | .zeroDivisor => 0#2
  | .badCmd => 0#2
  | .capacity => 0#2

/-- `ERR_IVLEN` after an engine error: zero but for `IV_LENGTH_MISMATCH` (60_exceptions.md R171, R178). -/
def errorIvLen : EngineError → Len
  | .dataLength _ => 0#32
  | .ivLengthMismatch m _ => m
  | .zeroDivisor => 0#32
  | .badCmd => 0#32
  | .capacity => 0#32

/-- `ERR_DATALEN` after an engine error: zero but for `IV_LENGTH_MISMATCH` (60_exceptions.md R171, R178). -/
def errorDataLen : EngineError → Len
  | .dataLength _ => 0#32
  | .ivLengthMismatch _ n => n
  | .zeroDivisor => 0#32
  | .badCmd => 0#32
  | .capacity => 0#32

end Sys2Proof.Machine
end

