-- ==== Sys2Proof/Machine/Ops.lean ====
section
/-! DEFINITION. The named operations over buffers and registers: reading and writing an element, the
engine's `MemRead` and `MemWrite` (spec 20_memory.md R59), starting a command, and the two ways a
command ends, `complete` (10_state.md R24) and `raise` (60_exceptions.md R178). -/

namespace Sys2Proof.Machine

/-- The element at an index, if it was written since reset. -/
def bufGet {width : Nat} : Buffer width → Nat → Option (BitVec width)
  | [], _ => none
  | (a, v) :: rest, i => if a = i then some v else bufGet rest i

/-- Write one element, keeping the indices strictly rising. -/
def bufSet {width : Nat} : Buffer width → Nat → BitVec width → Buffer width
  | [], i, x => [(i, x)]
  | (a, v) :: rest, i, x =>
    if i < a then (i, x) :: (a, v) :: rest
    else if i = a then (i, x) :: rest
    else (a, v) :: bufSet rest i x

/-- Write a list of elements at the indices from `i` upwards. -/
def bufStore {width : Nat} : Buffer width → Nat → List (BitVec width) → Buffer width
  | b, _, [] => b
  | b, i, x :: xs => bufStore (bufSet b i x) (i + 1) xs

/-- The byte buffers. -/
inductive ByteSpace where
  | rot | iv | dk
  deriving DecidableEq, Repr

/-- The space of a byte buffer (20_memory.md R50). -/
def ByteSpace.space : ByteSpace → Space
  | .rot => .rot
  | .iv => .iv
  | .dk => .dk

/-- The contents of a byte buffer. -/
def byteBuffer (m : Memory) : ByteSpace → Buffer 8
  | .rot => m.rot
  | .iv => m.iv
  | .dk => m.dk

/-- Why an engine access gives no value. -/
inductive Stop where
  | fault (f : Fault)
  | refused (r : Refusal)
  deriving DecidableEq, Repr

/-- The outcome of a command that stopped. -/
def Stop.outcome : Stop → Host.Outcome State Fault Refusal
  | .fault f => .fault f
  | .refused r => .refused r

/-- `MemRead(space, i, 8)` (20_memory.md R59). An element never written since reset has no defined result:
refused by name (93_implementation_defined.md U3, log 4). -/
def memReadByte (s : State) (sp : ByteSpace) (i : Nat) : Except Stop Byte :=
  if i < s.regs.capacity.toNat then
    match bufGet (byteBuffer s.mem sp) i with
    | some b => .ok b
    | none => .error (.refused (.neverWritten sp.space i))
  else .error (.fault (.engineAccessOutOfRange sp.space i))

/-- `MemRead(CT, i, 64)` (20_memory.md R59). -/
def memReadWord (s : State) (i : Nat) : Except Stop Word :=
  if i < s.regs.capacity.toNat then
    match bufGet s.mem.ct i with
    | some w => .ok w
    | none => .error (.refused (.neverWritten .ct i))
  else .error (.fault (.engineAccessOutOfRange .ct i))

/-- `MemWrite(CT, i, 64, v)`: the 64-bit store of the forward engine stores the whole word (20_memory.md
R59). -/
def memWriteWord (s : State) (i : Nat) (v : Word) : Except Stop State :=
  if i < s.regs.capacity.toNat then
    .ok { s with mem := { s.mem with ct := bufSet s.mem.ct i v } }
  else .error (.fault (.engineAccessOutOfRange .ct i))

/-- `MemWrite(ROT, i, 8, v)`: the 8-bit store of the inverse engine (20_memory.md R59, R60: `ROT` is the only
byte buffer the engine writes). -/
def memWriteByte (s : State) (i : Nat) (v : Byte) : Except Stop State :=
  if i < s.regs.capacity.toNat then
    .ok { s with mem := { s.mem with rot := bufSet s.mem.rot i v } }
  else .error (.fault (.engineAccessOutOfRange .rot i))

/-- Apply an access that may stop at the indices `i`, `i + 1`, …, `i + k - 1`, in that order, and collect the
results. No order of the lanes can be observed (10_state.md R33); it only decides which element a
refusal names (log 4). -/
def collect {α : Type} (load : Nat → Except Stop α) : Nat → Nat → Except Stop (List α)
  | _, 0 => .ok []
  | i, k + 1 =>
    match load i with
    | .error e => .error e
    | .ok x =>
      match collect load (i + 1) k with
      | .error e => .error e
      | .ok xs => .ok (x :: xs)

/-- Write an `ENC` output vector: elements 0..n−1 of `CT`, nothing else (20_memory.md R60). -/
def storeCt (s : State) (ws : List Word) : State :=
  { s with mem := { s.mem with ct := bufStore s.mem.ct 0 ws } }

/-- Write a `DEC` output vector: elements 0..n−1 of `ROT`, nothing else (20_memory.md R60). -/
def storeRot (s : State) (bs : List Byte) : State :=
  { s with mem := { s.mem with rot := bufStore s.mem.rot 0 bs } }

/-- The engine's internal registers once a command has ended: the sequencer idle, and each accumulator
"unspecified and unobservable" (10_state.md R32), a free value (logs 3 and 10). -/
def engineAfterCommand (draws : Nat) : Engine :=
  { s1 := Config.leftover draws, s2 := Config.leftover (draws + 1), s3 := Config.leftover (draws + 2),
    s1sq := Config.leftover (draws + 3), phase := .idle, index := 0 }

/-- `complete`: the command ended with success, `STATUS <- DONE` (10_state.md R24, 00_scope.md R9). -/
def complete (s : State) : State :=
  { s with
    regs := { s.regs with status := statusDone }
    eng := engineAfterCommand s.draws
    draws := s.draws + 4 }

/-- `raise <E>(info)`: the command ended with an engine error, one atomic change (60_exceptions.md R178).
Nothing is saved, there is no handler and no mode (R170, R184). -/
def raise (e : EngineError) (s : State) : State :=
  { s with
    regs := { s.regs with
      status := statusError
      errCode := errorCode e
      errBuf := errorBuf e
      errIvLen := errorIvLen e
      errDataLen := errorDataLen e }
    eng := engineAfterCommand s.draws
    draws := s.draws + 4 }

/-- `start`: a host write to `CMD` was accepted (10_state.md R23, R24): `CMD` stored, the error record
cleared, `STATUS <- BUSY`, the sequencer at its first phase (R33). -/
def startCommand (w : CommandWord) (s : State) : State :=
  { s with
    regs := { s.regs with
      cmd := w
      status := statusBusy
      errCode := 0#3
      errBuf := 0#2
      errIvLen := 0#32
      errDataLen := 0#32 }
    eng := { s.eng with phase := .decode } }

/-- The block's reset input (70_reset_and_hazards.md R200, R201; 10_state.md R36): every control register at
its reset value, `CAPACITY` unchanged (R31), every buffer element never written, the sequencer idle. A
running command is abandoned and no error recorded. The host goes on with its script
(log 16). -/
def resetBlock (s : State) : State :=
  { s with regs := Regs.reset s.regs.capacity, mem := Memory.empty, eng := Engine.reset }

/-- The command the engine fetches: the word `CMD` holds (20_memory.md R63; there is no instruction memory
and no program counter, 10_state.md R33). -/
def fetch (s : State) : CommandWord :=
  s.regs.cmd

end Sys2Proof.Machine
end

