-- ==== Sys2Proof/Machine/Operands.lean ====
section
/-! DEFINITION. The operands of a command, all of them implicit (spec 30_encoding.md R82): the lengths n and
m, and the lanes 0..n−1 of the input buffers (20_memory.md R60; 42_forward_transform.md R147;
43_inverse_transform.md R160). -/

namespace Sys2Proof.Machine

/-- n, the value of `DATA_LEN` (10_state.md R25). -/
def lengthN (s : State) : Len :=
  s.regs.dataLen

/-- m, the value of `IV_LEN` (10_state.md R26). -/
def lengthM (s : State) : Len :=
  s.regs.ivLen

/-- One lane of the forward transform's input (42_forward_transform.md R140, R147). -/
structure EncLane where
  rot : Byte
  iv  : Byte
  dk  : Byte
  deriving DecidableEq, Repr

/-- One lane of the inverse transform's input (43_inverse_transform.md R150, R160). -/
structure DecLane where
  ct : Word
  iv : Byte
  dk : Byte
  deriving DecidableEq, Repr

/-- Lane `i` of `ENC` (42_forward_transform.md R142). -/
def loadEncLane (s : State) (i : Nat) : Except Stop EncLane :=
  match memReadByte s .rot i with
  | .error e => .error e
  | .ok r =>
    match memReadByte s .iv i with
    | .error e => .error e
    | .ok v =>
      match memReadByte s .dk i with
      | .error e => .error e
      | .ok k => .ok { rot := r, iv := v, dk := k }

/-- Lane `i` of `DEC` (43_inverse_transform.md R152). -/
def loadDecLane (s : State) (i : Nat) : Except Stop DecLane :=
  match memReadWord s i with
  | .error e => .error e
  | .ok c =>
    match memReadByte s .iv i with
    | .error e => .error e
    | .ok v =>
      match memReadByte s .dk i with
      | .error e => .error e
      | .ok k => .ok { ct := c, iv := v, dk := k }

/-- The lanes 0..n−1 of `ENC`. -/
def loadEncLanes (s : State) : Except Stop (List EncLane) :=
  collect (loadEncLane s) 0 (lengthN s).toNat

/-- The lanes 0..n−1 of `DEC`. -/
def loadDecLanes (s : State) : Except Stop (List DecLane) :=
  collect (loadDecLane s) 0 (lengthN s).toNat

/-- The widened elements of a lane: "Widen every element to a 64-bit signed integer via value-preserving
sign extension" (30_encoding.md R83). -/
def EncLane.r (l : EncLane) : Word := sext64 l.rot
def EncLane.v (l : EncLane) : Word := sext64 l.iv
def EncLane.k (l : EncLane) : Word := sext64 l.dk
def DecLane.v (l : DecLane) : Word := sext64 l.iv
def DecLane.k (l : DecLane) : Word := sext64 l.dk

end Sys2Proof.Machine
end

