-- ==== Sys2Proof/Machine/Gate.lean ====
section
/-! DEFINITION. The Validation Gate and the two commands that run it alone (spec 41_validation_gate.md). -/

namespace Sys2Proof.Machine

/-- `GateEnc(n)` (R130): the error the encrypt path ends with, if any. -/
def gateEnc (n : Len) : Option EngineError :=
  if n = 0#32 then some (.dataLength .data) else none

/-- `GateDec(n, m)` (R131): the error the decrypt path ends with, if any; the length is tested first. -/
def gateDec (n m : Len) : Option EngineError :=
  if n = 0#32 then some (.dataLength .ciphertext)
  else if n ≠ m then some (.ivLengthMismatch m n)
  else none

/-- `CAPACITY` is tested after every check of the gate (60_exceptions.md R176, R177): n > NMAX. -/
def capacityCheck (s : State) : Option EngineError :=
  if s.regs.capacity.toNat < (lengthN s).toNat then some .capacity else none

/-- `VENC` (R133): the gate's encrypt path alone. -/
def execVenc (s : State) : Host.Outcome State Fault Refusal :=
  match gateEnc (lengthN s) with
  | some e => .next (raise e s)
  | none => .next (complete s)

/-- `VDEC` (R134): the gate's decrypt path alone. -/
def execVdec (s : State) : Host.Outcome State Fault Refusal :=
  match gateDec (lengthN s) (lengthM s) with
  | some e => .next (raise e s)
  | none => .next (complete s)

end Sys2Proof.Machine
end

