-- ==== Sys2Proof/Machine/Forward.lean ====
section
/-! DEFINITION. The forward engine and its command `ENC` (spec 42_forward_transform.md). -/

namespace Sys2Proof.Machine

/-- The forward engine's term of S1 (R141 step 2). -/
def encTerm1 (l : EncLane) : Word := wmul l.k l.k

/-- The forward engine's term of S2 (R141 step 2). -/
def encTerm2 (l : EncLane) : Word := wmul l.k (wsub l.r l.v)

/-- One ciphertext word from its lane and the two scalars (R141 step 3). -/
def encWord (s1 s2 : Word) (l : EncLane) : Word :=
  wsub (wmul l.r s1) (dbl (wmul l.k s2))

/-- `Forward(n, rot, iv, dk)` (R141), the n lanes as a list: both accumulators first, then one word per
lane. -/
def forward (ls : List EncLane) : List Word :=
  let s1 := wsum (ls.map encTerm1)
  let s2 := wsum (ls.map encTerm2)
  ls.map (encWord s1 s2)

/-- `ENC` (R142): the gate's encrypt path, the capacity check, then the forward transform into `CT`. -/
def execEnc (s : State) : Host.Outcome State Fault Refusal :=
  match gateEnc (lengthN s) with
  | some e => .next (raise e s)
  | none =>
    match capacityCheck s with
    | some e => .next (raise e s)
    | none =>
      match loadEncLanes s with
      | .error stop => stop.outcome
      | .ok ls => .next (complete (storeCt s (forward ls)))

end Sys2Proof.Machine
end

