-- ==== Sys2Proof/Machine/Inverse.lean ====
section
/-! DEFINITION. The inverse engine and its command `DEC` (spec 43_inverse_transform.md): the document's closed
form, one truncating division per lane (90_conflicts.md C1). -/

namespace Sys2Proof.Machine

/-- The inverse engine's term of S1 (R151 step 3). -/
def decTerm1 (l : DecLane) : Word := wmul l.k l.k

/-- The inverse engine's term of S2: key times ciphertext (R151 step 3). -/
def decTerm2 (l : DecLane) : Word := wmul l.k l.ct

/-- The inverse engine's term of S3: key times IV (R151 step 3). -/
def decTerm3 (l : DecLane) : Word := wmul l.k l.v

/-- `num[i]` (R151 step 4), grouped as written. -/
def decNumerator (s1 s2 s3 : Word) (l : DecLane) : Word :=
  wsub (wmul (wadd l.ct (dbl (wmul l.k s3))) s1) (dbl (wmul l.k s2))

/-- One byte from its lane and the four scalars (R151 steps 4 and 5, R155). The divisor is not zero: the
guard was passed. -/
def decByte (s1 s2 s3 s1sq : Word) (divisor : s1sq ≠ 0#64) (l : DecLane) : Byte :=
  trunc8 (sdiv (decNumerator s1 s2 s3 l) s1sq divisor)

/-- `S1SQ`, "S1Squared = S1·S1" (R151 step 3). -/
def divisorOf (ls : List DecLane) : Word :=
  let s1 := wsum (ls.map decTerm1)
  wmul s1 s1

/-- `Inverse(n, ct, iv, dk)` (R151), the n lanes as a list; `none` is `ZeroDivisor`, and the guard tests the
divisor word itself (R153). -/
def inverse (ls : List DecLane) : Option (List Byte) :=
  let s1 := wsum (ls.map decTerm1)
  let s2 := wsum (ls.map decTerm2)
  let s3 := wsum (ls.map decTerm3)
  let s1sq := wmul s1 s1
  if divisor : s1sq = 0#64 then none
  else some (ls.map (decByte s1 s2 s3 s1sq divisor))

/-- `DEC` (R152): the gate's decrypt path, the capacity check, then the inverse transform into `ROT`. -/
def execDec (s : State) : Host.Outcome State Fault Refusal :=
  match gateDec (lengthN s) (lengthM s) with
  | some e => .next (raise e s)
  | none =>
    match capacityCheck s with
    | some e => .next (raise e s)
    | none =>
      match loadDecLanes s with
      | .error stop => stop.outcome
      | .ok ls =>
        match inverse ls with
        | none => .next (raise .zeroDivisor s)
        | some bs => .next (complete (storeRot s bs))

end Sys2Proof.Machine
end

