-- ==== Sys2Proof/Machine/EngineStep.lean ====
section
/-! DEFINITION. The engine's step: fetch the latched command word, decode it, run the command to its end in
one atomic step (spec 10_state.md R33, 92_eei_decisions.md D31; logs 6 and 17). -/

namespace Sys2Proof.Machine

/-- The engine runs the latched command (00_scope.md R11). An illegal word ends with `BAD_CMD`, tested before
anything else, no length and no buffer read (30_encoding.md R84, 60_exceptions.md R175, R177). -/
def runLatched (s : State) : Host.Outcome State Fault Refusal :=
  match decode (fetch s) with
  | .ok i => exec i s
  | .error _ => .next (raise .badCmd s)

/-- The engine's step, enabled exactly when `STATUS.BUSY = 1` (00_scope.md R11); a turn at which it is not
enabled changes nothing (log 7). -/
def engineStep (s : State) : Host.Outcome State Fault Refusal :=
  if busy s then runLatched s else .next s

/-- Whose move it is: the schedule's next entry, or, once it is used up, the engine's whenever it is enabled
and else the host's (70_reset_and_hazards.md R206; log 7). -/
def nextTurn (s : State) : Turn :=
  match s.host.schedule with
  | t :: _ => t
  | [] => if busy s then .engine else .host

/-- The state once the schedule's next entry is used. -/
def dropTurn (s : State) : State :=
  { s with host := { s.host with schedule := s.host.schedule.tail } }

end Sys2Proof.Machine
end

