-- ==== Sys2Proof/Machine/Port.lean ====
section
/-! DEFINITION. The host port (spec 20_memory.md R50 to R57): what a transaction is answered and what it
changes. -/

namespace Sys2Proof.Machine

/-- The number of a space (R50). -/
def Space.number : Space → Nat
  | .reg => 0
  | .rot => 1
  | .iv => 2
  | .dk => 3
  | .ct => 4

/-- The space a number selects; 5 and above select nothing (R50, R54 case 1). -/
def spaceOfNumber : Nat → Option Space
  | 0 => some .reg
  | 1 => some .rot
  | 2 => some .iv
  | 3 => some .dk
  | 4 => some .ct
  | _ => none

/-- The `REG` index of a control register (10_state.md R23 to R31). -/
def RegName.index : RegName → BitVec 32
  | .cmd => 0#32
  | .status => 1#32
  | .dataLen => 2#32
  | .ivLen => 3#32
  | .errCode => 4#32
  | .errBuf => 5#32
  | .errIvLen => 6#32
  | .errDataLen => 7#32
  | .capacity => 8#32

/-- The control register at a `REG` index; indices 9 and above hold nothing (10_state.md R31). -/
def regAt (index : Nat) : Option RegName :=
  match index with
  | 0 => some .cmd
  | 1 => some .status
  | 2 => some .dataLen
  | 3 => some .ivLen
  | 4 => some .errCode
  | 5 => some .errBuf
  | 6 => some .errIvLen
  | 7 => some .errDataLen
  | 8 => some .capacity
  | _ => none

/-- Whether the host may write a control register (10_state.md R20, 20_memory.md R54 case 3). -/
def RegName.writable : RegName → Bool
  | .cmd => true
  | .status => false
  | .dataLen => true
  | .ivLen => true
  | .errCode => false
  | .errBuf => false
  | .errIvLen => false
  | .errDataLen => false
  | .capacity => false

/-- A control register as the host reads it, zero-extended (R52). -/
def readReg (g : Regs) : RegName → Word
  | .cmd => zext64 g.cmd
  | .status => zext64 g.status
  | .dataLen => zext64 g.dataLen
  | .ivLen => zext64 g.ivLen
  | .errCode => zext64 g.errCode
  | .errBuf => zext64 g.errBuf
  | .errIvLen => zext64 g.errIvLen
  | .errDataLen => zext64 g.errDataLen
  | .capacity => zext64 g.capacity

/-- The space number of a transaction. -/
def Transaction.space : Transaction → Nat
  | .hostRead sp _ => sp
  | .hostWrite sp _ _ => sp

/-- The index of a transaction. -/
def Transaction.index : Transaction → BitVec 32
  | .hostRead _ i => i
  | .hostWrite _ i _ => i

/-- Whether a transaction is a write. -/
def Transaction.isWrite : Transaction → Bool
  | .hostRead _ _ => false
  | .hostWrite _ _ _ => true

/-- `HostRead(REG, 1)`: the read of `STATUS`, the one transaction accepted while `BUSY` (R54 case 4). -/
def statusRead : Transaction :=
  .hostRead 0 1#32

/-- The four cases in which a transaction is refused (R54). -/
inductive PortRefusal where
  | noSuchSpace
  | noSuchIndex
  | readOnly
  | whileBusy
  deriving DecidableEq, Repr

/-- Whether a space has an element at an index (R50, R54 case 2). -/
def indexExists (s : State) (sp : Space) (index : Nat) : Bool :=
  match sp with
  | .reg => (regAt index).isSome
  | .rot => decide (index < s.regs.capacity.toNat)
  | .iv => decide (index < s.regs.capacity.toNat)
  | .dk => decide (index < s.regs.capacity.toNat)
  | .ct => decide (index < s.regs.capacity.toNat)

/-- Whether an element that exists may be written (R54 case 3). -/
def mayWrite (sp : Space) (index : Nat) : Bool :=
  match sp with
  | .reg =>
    match regAt index with
    | some r => r.writable
    | none => false
  | .rot => true
  | .iv => true
  | .dk => true
  | .ct => true

/-- Which case of R54 refuses a transaction, if any, tested in R54's order. -/
def portRefusal (s : State) (t : Transaction) : Option PortRefusal :=
  match spaceOfNumber t.space with
  | none => some .noSuchSpace
  | some sp =>
    if indexExists s sp t.index.toNat then
      if t.isWrite && !mayWrite sp t.index.toNat then some .readOnly
      else if busy s && decide (t ≠ statusRead) then some .whileBusy
      else none
    else some .noSuchIndex

/-- The content of a never-written element as a host read sees it: a free value of the element's width
(R52, 93_implementation_defined.md U3; log 5), indexed by the number of responses so far. -/
def freeWord (s : State) : Word :=
  Config.neverWritten s.host.log.length

/-- The free value of an 8-bit element (log 5). -/
def freeByte (s : State) : Byte :=
  trunc8 (freeWord s)

/-- The data of a read that is not refused (R52): a byte zero-extended, a `CT` word whole, a register
zero-extended. -/
def readData (s : State) (sp : Space) (index : Nat) : Word :=
  match sp with
  | .reg =>
    match regAt index with
    | some r => readReg s.regs r
    | none => 0#64
  | .rot => zext64 ((bufGet s.mem.rot index).getD (freeByte s))
  | .iv => zext64 ((bufGet s.mem.iv index).getD (freeByte s))
  | .dk => zext64 ((bufGet s.mem.dk index).getD (freeByte s))
  | .ct => (bufGet s.mem.ct index).getD (freeWord s)

/-- The write of a control register (R53): bits of the data above the register's width are ignored, and a
write to `CMD` starts a command (10_state.md R24). The read-only registers were refused before. -/
def writeReg (s : State) (r : RegName) (data : Word) : State :=
  match r with
  | .cmd => startCommand (data.extractLsb' 0 32) s
  | .dataLen => { s with regs := { s.regs with dataLen := data.extractLsb' 0 32 } }
  | .ivLen => { s with regs := { s.regs with ivLen := data.extractLsb' 0 32 } }
  | .status => s
  | .errCode => s
  | .errBuf => s
  | .errIvLen => s
  | .errDataLen => s
  | .capacity => s

/-- The effect of a write that is not refused (R53). -/
def writeData (s : State) (sp : Space) (index : Nat) (data : Word) : State :=
  match sp with
  | .reg =>
    match regAt index with
    | some r => writeReg s r data
    | none => s
  | .rot => { s with mem := { s.mem with rot := bufSet s.mem.rot index (trunc8 data) } }
  | .iv => { s with mem := { s.mem with iv := bufSet s.mem.iv index (trunc8 data) } }
  | .dk => { s with mem := { s.mem with dk := bufSet s.mem.dk index (trunc8 data) } }
  | .ct => { s with mem := { s.mem with ct := bufSet s.mem.ct index data } }

/-- One transaction: the state after it and its response (R51 to R54). A refused access changes nothing. -/
def perform (s : State) (t : Transaction) : State × Response :=
  match portRefusal s t with
  | some _ => (s, .err)
  | none =>
    match t with
    | .hostRead sp index =>
      match spaceOfNumber sp with
      | some space => (s, .okData (readData s space index.toNat))
      | none => (s, .err)
    | .hostWrite sp index data =>
      match spaceOfNumber sp with
      | some space => (writeData s space index.toNat data, .ok)
      | none => (s, .err)

end Sys2Proof.Machine
end

