-- ==== Sys2Proof/Machine/Script.lean ====
section
/-! DEFINITION. The host agent: the script notation and its expansion into transactions (spec
30_encoding.md R86, R87), and one move of the host. -/

namespace Sys2Proof.Machine

/-- A line of a host script: the four transaction lines of R86, each with the response it states if any,
and the pseudo-lines of R87. -/
inductive Line where
  | wr (r : RegName) (v : Word) (expect : Option Response)
  | rd (r : RegName) (expect : Option Response)
  | wre (sp : Space) (i : BitVec 32) (v : Word) (expect : Option Response)
  | rde (sp : Space) (i : BitVec 32) (expect : Option Response)
  | command (i : Instr)
  | wait
  | run (i : Instr)
  | ldv (sp : Space) (vs : List Word)
  | len (n : Word)
  | expectReg (r : RegName) (v : Word)
  | expectElement (sp : Space) (i : BitVec 32) (v : Word)
  deriving DecidableEq, Repr

/-- `HostWrite(REG, index(<reg>), v)` (R86). -/
def writeRegTx (r : RegName) (v : Word) : Transaction :=
  .hostWrite Space.reg.number r.index v

/-- `HostRead(REG, index(<reg>))` (R86). -/
def readRegTx (r : RegName) : Transaction :=
  .hostRead Space.reg.number r.index

/-- The line `VENC`, `VDEC`, `ENC` or `DEC`: `WR CMD, <command word>` (R87). -/
def commandTx (i : Instr) : Transaction :=
  writeRegTx .cmd (zext64 (encode i))

/-- `WRE <space>[j], v0`, `WRE <space>[j+1], v1`, …, in index order (R87, `LDV`). DESIGN CHOICE (log 19),
unsafe: past 2^32 values, for which the spec gives no expansion, the 32-bit index (20_memory.md R51) wraps. -/
def loadVector (sp : Space) : Nat → List Word → List HostOp
  | _, [] => []
  | j, v :: vs => .tx (.hostWrite sp.number (BitVec.ofNat 32 j) v) none :: loadVector sp (j + 1) vs

/-- What a line makes the host do (R86, R87). -/
def expandLine : Line → List HostOp
  | .wr r v e => [.tx (writeRegTx r v) e]
  | .rd r e => [.tx (readRegTx r) e]
  | .wre sp i v e => [.tx (.hostWrite sp.number i v) e]
  | .rde sp i e => [.tx (.hostRead sp.number i) e]
  | .command i => [.tx (commandTx i) none]
  | .wait => [.wait]
  | .run i => [.tx (commandTx i) none, .wait]
  | .ldv sp vs => loadVector sp 0 vs
  | .len n => [.tx (writeRegTx .dataLen n) none, .tx (writeRegTx .ivLen n) none]
  | .expectReg r v => [.tx (readRegTx r) (some (.okData v))]
  | .expectElement sp i v => [.tx (.hostRead sp.number i) (some (.okData v))]

/-- What a script makes the host do, its lines in order (R86). -/
def expandScript (ls : List Line) : List HostOp :=
  ls.flatMap expandLine

/-- Whether a response is the one the script's author stated (R86: "to state the response the rules give"). -/
def LogEntry.asStated (e : LogEntry) : Bool :=
  match e.expect with
  | none => true
  | some r => decide (r = e.response)

/-- Whether a response is a read of `STATUS` with bit 0 (`BUSY`) equal to 0: the end of a `WAIT` (R87). -/
def endsWait : Response → Bool
  | .okData d => !d.getLsbD 0
  | .ok => false
  | .err => false

/-- Issue one transaction, keep its response, and go on with the rest of the script. -/
def issue (s : State) (t : Transaction) (expect : Option Response) (rest : List HostOp) : State :=
  let p := perform s t
  { p.1 with host := { s.host with
      script := rest
      log := { tx := t, response := p.2, expect := expect } :: s.host.log } }

/-- One move of the host: its next transaction (20_memory.md R51), or one poll of a `WAIT`, which stays in
the script until it reads `BUSY` = 0 (30_encoding.md R87; log 18). A host with nothing to do does nothing. -/
def hostTurn (s : State) : State :=
  match s.host.script with
  | [] => s
  | .tx t expect :: rest => issue s t expect rest
  | .wait :: rest =>
    issue s statusRead none (if endsWait (perform s statusRead).2 then rest else .wait :: rest)

end Sys2Proof.Machine
end

