-- ==== Sys2Proof/Machine/Step.lean ====
section
/-! DEFINITION. One step of the whole: one atomic event, a host transaction, the engine's step or a reset
(spec 92_eei_decisions.md D1). -/

namespace Sys2Proof.Machine

/-- One atomic event (D1; 00_scope.md R11). -/
def step (s : State) : Host.Outcome State Fault Refusal :=
  match nextTurn s with
  | .engine => engineStep (dropTurn s)
  | .host => .next (hostTurn (dropTurn s))
  | .reset => .next (resetBlock (dropTurn s))

/-- `s` with the command word `w` started (10_state.md R24) and the engine's move next, so that the very next
step runs it (log 9). A command is one 32-bit word; the bits from `nbits` up are zero. -/
def State.withFetchWord (s : State) (nbits w : Nat) : State :=
  let t := startCommand (BitVec.ofNat 32 (w % 2 ^ nbits)) s
  { t with host := { t.host with schedule := .engine :: t.host.schedule } }

end Sys2Proof.Machine
end

