-- ==== Sys2Proof/Machine/Sequencer.lean ====
section
/-! DEFINITION. The engine's sequencer (spec 10_state.md R33), phase by phase and element by element: the finer
steps that decision D31 allows. `step` runs a command as one atomic step; this file says what
happens inside it, and that the two agree is a statement about the model, not part of `step`. The
port refuses every access but a read of `STATUS` in all of these states, since they are all `BUSY`
(20_memory.md R54 case 4). -/

namespace Sys2Proof.Machine

/-- Go to a phase. -/
def toPhase (p : Phase) (s : State) : State :=
  { s with eng := { s.eng with phase := p } }

/-- Begin a pass over the indices 0..n−1 (R33). -/
def beginPass (p : Phase) (s : State) : State :=
  { s with eng := { s.eng with phase := p, index := 0 } }

/-- Go to the next index of a pass (R33). -/
def nextIndex (s : State) : State :=
  { s with eng := { s.eng with index := s.eng.index + 1 } }

/-- "every command that uses one first sets it to the zero word" (10_state.md R32). -/
def clearAccumulators (i : Instr) (s : State) : State :=
  if i.decryptPath then { s with eng := { s.eng with s1 := 0#64, s2 := 0#64, s3 := 0#64, s1sq := 0#64 } }
  else { s with eng := { s.eng with s1 := 0#64, s2 := 0#64 } }

/-- The path of the gate a command takes: `OP[0]` says which (30_encoding.md R81). -/
def gatePath (i : Instr) (s : State) : Option EngineError :=
  if i.decryptPath then gateDec (lengthN s) (lengthM s) else gateEnc (lengthN s)

/-- Phase gate: the gate, and for a command that runs a transform (`OP[1]`) the capacity check. -/
def seqGate (i : Instr) (s : State) : Host.Outcome State Fault Refusal :=
  match gatePath i s with
  | some e => .next (raise e s)
  | none =>
    if i.runsTransform then
      match capacityCheck s with
      | some e => .next (raise e s)
      | none => .next (beginPass .accumulate (clearAccumulators i s))
    else .next (toPhase .finish s)

/-- Add an `ENC` lane to the accumulators (42_forward_transform.md R141 step 2). -/
def addEncLane (l : EncLane) (s : State) : State :=
  { s with eng := { s.eng with s1 := wadd s.eng.s1 (encTerm1 l), s2 := wadd s.eng.s2 (encTerm2 l) } }

/-- Add a `DEC` lane to the accumulators (43_inverse_transform.md R151 step 3). -/
def addDecLane (l : DecLane) (s : State) : State :=
  { s with eng := { s.eng with
      s1 := wadd s.eng.s1 (decTerm1 l)
      s2 := wadd s.eng.s2 (decTerm2 l)
      s3 := wadd s.eng.s3 (decTerm3 l) } }

/-- Phase accumulate: one pass over 0..n−1, and after it, on the decrypt path, `S1SQ`. -/
def seqAccumulate (i : Instr) (s : State) : Host.Outcome State Fault Refusal :=
  if s.eng.index < (lengthN s).toNat then
    if i.decryptPath then
      match loadDecLane s s.eng.index with
      | .error stop => stop.outcome
      | .ok l => .next (nextIndex (addDecLane l s))
    else
      match loadEncLane s s.eng.index with
      | .error stop => stop.outcome
      | .ok l => .next (nextIndex (addEncLane l s))
  else if i.decryptPath then
    .next { s with eng := { s.eng with s1sq := wmul s.eng.s1 s.eng.s1, phase := .guard } }
  else .next (beginPass .emit s)

/-- Phase guard, inverse engine only (43_inverse_transform.md R153). -/
def seqGuard (s : State) : Host.Outcome State Fault Refusal :=
  if s.eng.s1sq = 0#64 then .next (raise .zeroDivisor s) else .next (beginPass .emit s)

/-- Phase emit for `ENC`: the word of the current lane (R141 step 3). -/
def emitEnc (s : State) : Host.Outcome State Fault Refusal :=
  match loadEncLane s s.eng.index with
  | .error stop => stop.outcome
  | .ok l =>
    match memWriteWord s s.eng.index (encWord s.eng.s1 s.eng.s2 l) with
    | .error stop => stop.outcome
    | .ok t => .next (nextIndex t)

/-- Phase emit for `DEC`: the byte of the current lane (R151 steps 4 and 5). The guard phase came before, so
the divisor is not zero; were it zero, the division is not evaluated (40_arithmetic.md R108). -/
def emitDec (s : State) : Host.Outcome State Fault Refusal :=
  match loadDecLane s s.eng.index with
  | .error stop => stop.outcome
  | .ok l =>
    if divisor : s.eng.s1sq = 0#64 then .next (raise .zeroDivisor s)
    else
      match memWriteByte s s.eng.index (decByte s.eng.s1 s.eng.s2 s.eng.s3 s.eng.s1sq divisor l) with
      | .error stop => stop.outcome
      | .ok t => .next (nextIndex t)

/-- Phase emit: a second pass over 0..n−1 (R33). -/
def seqEmit (i : Instr) (s : State) : Host.Outcome State Fault Refusal :=
  if s.eng.index < (lengthN s).toNat then
    if i.decryptPath then emitDec s else emitEnc s
  else .next (toPhase .finish s)

/-- What a phase does for a command. -/
def seqPhase (i : Instr) (s : State) : Host.Outcome State Fault Refusal :=
  match s.eng.phase with
  | .idle => .next s
  | .decode => .next (toPhase .gate s)
  | .gate => seqGate i s
  | .accumulate => seqAccumulate i s
  | .guard => seqGuard s
  | .emit => seqEmit i s
  | .finish => .next (complete s)

/-- One small step of the sequencer, enabled while `BUSY`. An illegal word leaves the decode phase by `raise`. -/
def microStep (s : State) : Host.Outcome State Fault Refusal :=
  match decode (fetch s) with
  | .ok i => seqPhase i s
  | .error _ => .next (raise .badCmd s)

/-- At most `k` small steps, up to the end of the command. -/
def microRun : Nat → State → Host.Outcome State Fault Refusal
  | 0, s => .next s
  | k + 1, s =>
    if busy s then
      match microStep s with
      | .next t => microRun k t
      | .fault f => .fault f
      | .refused r => .refused r
    else .next s

end Sys2Proof.Machine
end

