-- ==== Sys2Proof/Safety.lean ====
section
/-! DEFINITION. What statements say of a state or a run: the invariant the spec states (10_state.md R37), what
the host owes before a command (70_reset_and_hazards.md R203), what a host can see, and when a run has
ended (R207). -/

namespace Sys2Proof.Machine

/-- Element `i` of every input buffer of a command was written since reset (70_reset_and_hazards.md R203 (b);
20_memory.md R60). -/
def laneWritten (i : Instr) (s : State) (j : Nat) : Prop :=
  match i with
  | .venc => True
  | .vdec => True
  | .enc => (bufGet s.mem.rot j).isSome ∧ (bufGet s.mem.iv j).isSome ∧ (bufGet s.mem.dk j).isSome
  | .dec => (bufGet s.mem.ct j).isSome ∧ (bufGet s.mem.iv j).isSome ∧ (bufGet s.mem.dk j).isSome

/-- What the host owes before a command: every element 0..n−1 of its input buffers written (R203 (b)). -/
def inputsWritten (i : Instr) (s : State) : Prop :=
  ∀ j, j < (lengthN s).toNat → laneWritten i s j

/-- `STATUS` is one of the four named values (10_state.md R37 (a)). -/
def statusLegal (s : State) : Prop :=
  s.regs.status = statusIdle ∨ s.regs.status = statusBusy ∨ s.regs.status = statusDone ∨
    s.regs.status = statusError

/-- The error record agrees with itself and with `STATUS` (10_state.md R37 (b) to (d), R27, R28, R30). -/
def recordLegal (s : State) : Prop :=
  (s.regs.errCode ≠ 0#3 ↔ s.regs.status = statusError) ∧
  (s.regs.errBuf ≠ 0#2 → s.regs.errCode = 1#3) ∧
  (s.regs.errIvLen ≠ 0#32 → s.regs.errCode = 2#3) ∧
  (s.regs.errDataLen ≠ 0#32 ↔ s.regs.errCode = 2#3) ∧
  s.regs.errCode.toNat ≤ 5 ∧ s.regs.errBuf.toNat ≤ 2

/-- Between two steps the sequencer is idle, or at its first phase when a command was started (10_state.md
R33; log 10). -/
def sequencerLegal (s : State) : Prop :=
  s.eng.phase = if busy s then .decode else .idle

/-- Every element a buffer holds is one of its NMAX elements (10_state.md R21, R22). -/
def indicesLegal {width : Nat} (nmax : Len) (b : Buffer width) : Prop :=
  ∀ i, (bufGet b i).isSome → i < nmax.toNat

/-- Every buffer holds elements 0..NMAX−1 only (10_state.md R21, R22), in the model's canonical form (log 4). -/
def memoryLegal (s : State) : Prop :=
  s.mem.wf ∧ indicesLegal s.regs.capacity s.mem.rot ∧ indicesLegal s.regs.capacity s.mem.iv ∧
    indicesLegal s.regs.capacity s.mem.dk ∧ indicesLegal s.regs.capacity s.mem.ct

/-- The invariant (10_state.md R37, with R21, R22, R27, R28, R30; its sequencer part is log 10's and the canonical
form of the buffers log 4's). -/
def Legal (s : State) : Prop :=
  statusLegal s ∧ recordLegal s ∧ sequencerLegal s ∧ memoryLegal s

/-- All that a host transaction could show of a block: the control registers and the buffers. The accumulators
and the sequencer are not visible (10_state.md R32, R33). -/
def blockView (s : State) : Regs × Memory :=
  (s.regs, s.mem)

/-- The command ended with the engine error whose record is given: `STATUS = ERROR`, the four error registers,
and nothing else the host could see changed (60_exceptions.md R178, R179). -/
def endedInError (s t : State) (code : BitVec 3) (buf : BitVec 2) (ivLength dataLength : Len) : Prop :=
  t.regs = { s.regs with
    status := statusError
    errCode := code
    errBuf := buf
    errIvLen := ivLength
    errDataLen := dataLength } ∧
  t.mem = s.mem ∧ t.host = s.host

/-- The command ended with success: `STATUS = DONE`, every other control register unchanged (10_state.md R24,
`complete`). What became of the buffers is said apart. -/
def endedInSuccess (s t : State) : Prop :=
  t.regs = { s.regs with status := statusDone } ∧ t.host = s.host

/-- The run has ended: the script is answered and `STATUS.BUSY = 0` (70_reset_and_hazards.md R207). -/
def runEnded (s : State) : Prop :=
  s.host.script = [] ∧ busy s = false

end Sys2Proof.Machine
end

