-- ==== Sys2Proof/Certificates/Slice0/Obligations.lean ====
section
/-! DEFINITION. The statements for the provers. Each docstring names the rules of spec/ it rests on; the words
"model's choice" mark what the spec leaves to the model. -/

namespace Sys2Proof.Machine

/-! The integer quantities of spec 42_forward_transform.md and 43_inverse_transform.md, with no wrapping. -/

/-- `T = Σ asSigned(dk[i])²` of an encryption (43_inverse_transform.md R157). -/
def encT (ls : List EncLane) : Int :=
  (ls.map fun l => asSigned l.dk ^ 2).sum

/-- `Σ dk[i]·(rot[i] − iv[i])` (42_forward_transform.md R141). -/
def encS2 (ls : List EncLane) : Int :=
  (ls.map fun l => asSigned l.dk * (asSigned l.rot - asSigned l.iv)).sum

/-- `C[i] = r[i]·T − 2·(k[i]·S2)` over the integers (42_forward_transform.md R141, R157). -/
def encInt (ls : List EncLane) (l : EncLane) : Int :=
  asSigned l.rot * encT ls - 2 * (asSigned l.dk * encS2 ls)

/-- `T` of a decryption (43_inverse_transform.md R158). -/
def decT (ls : List DecLane) : Int :=
  (ls.map fun l => asSigned l.dk ^ 2).sum

/-- `Σ dk[i]·ct[i]` (43_inverse_transform.md R151). -/
def decS2 (ls : List DecLane) : Int :=
  (ls.map fun l => asSigned l.dk * l.ct.toInt).sum

/-- `Σ dk[i]·iv[i]` (43_inverse_transform.md R151). -/
def decS3 (ls : List DecLane) : Int :=
  (ls.map fun l => asSigned l.dk * asSigned l.iv).sum

/-- The numerator over the integers (43_inverse_transform.md R151 step 4). -/
def decInt (ls : List DecLane) (l : DecLane) : Int :=
  (l.ct.toInt + 2 * (asSigned l.dk * decS3 ls)) * decT ls - 2 * (asSigned l.dk * decS2 ls)

/-- The matrix `M = S1·I − 2·k·kᵀ` (42_forward_transform.md R145). -/
def encMatrix (ls : List EncLane) (i j : Fin ls.length) : Int :=
  (if i = j then encT ls else 0) - 2 * (asSigned ls[i].dk * asSigned ls[j].dk)

/-- The lanes `DEC` sees when an encryption's IV and key go with the ciphertext words `cs`. -/
def decLanes (ls : List EncLane) (cs : List Word) : List DecLane :=
  List.zipWith (fun l c => { ct := c, iv := l.iv, dk := l.dk }) ls cs

/-- Two states agree on all a command's result may depend on: the registers and elements 0..n−1 of the
command's input buffers (10_state.md R34). -/
def sameInputs (i : Instr) (s s' : State) : Prop :=
  s.regs = s'.regs ∧
  (i.runsTransform = true → ∀ j, j < s.regs.dataLen.toNat →
    bufGet s.mem.iv j = bufGet s'.mem.iv j ∧ bufGet s.mem.dk j = bufGet s'.mem.dk j ∧
    (if i.decryptPath then bufGet s.mem.ct j = bufGet s'.mem.ct j
     else bufGet s.mem.rot j = bufGet s'.mem.rot j))

/-- A read at this space and index names no never-written element (20_memory.md R52: the value of such a read is
unspecified). -/
def readSpecified (s : State) (sp i : Nat) : Prop :=
  (sp = 1 → (bufGet s.mem.rot i).isSome) ∧ (sp = 2 → (bufGet s.mem.iv i).isSome) ∧
    (sp = 3 → (bufGet s.mem.dk i).isSome) ∧ (sp = 4 → (bufGet s.mem.ct i).isSome)

/-- The buffer `sp` is an input of the command (20_memory.md R60) and its element `j` was never written since reset
(93_implementation_defined.md U3). -/
def inputNeverWritten (i : Instr) (s : State) (sp : Space) (j : Nat) : Prop :=
  match sp with
  | .reg => False
  | .rot => i = .enc ∧ bufGet s.mem.rot j = none
  | .iv => (i = .enc ∨ i = .dec) ∧ bufGet s.mem.iv j = none
  | .dk => (i = .enc ∨ i = .dec) ∧ bufGet s.mem.dk j = none
  | .ct => i = .dec ∧ bufGet s.mem.ct j = none

/-- The command runs a transform and gets past its checks: the gate and the capacity (42_forward_transform.md
R142, 43_inverse_transform.md R152, 60_exceptions.md R177). -/
def passesChecks (i : Instr) (s : State) : Prop :=
  (i = .enc ∨ i = .dec) ∧ s.regs.dataLen ≠ 0#32 ∧ (i = .dec → s.regs.dataLen = s.regs.ivLen) ∧
    s.regs.dataLen.toNat ≤ s.regs.capacity.toNat

/-- The `REG` indices of the registers a script names, from 10_state.md R23 to R31. -/
def scriptIndex : RegName → BitVec 32
  | .cmd => 0#32
  | .status => 1#32
  | .dataLen => 2#32
  | .ivLen => 3#32
  | .errCode => 4#32
  | .errBuf => 5#32
  | .errIvLen => 6#32
  | .errDataLen => 7#32
  | .capacity => 8#32

/-- The space numbers of the spaces a script names, from 20_memory.md R50. -/
def scriptSpace : Space → Nat
  | .reg => 0
  | .rot => 1
  | .iv => 2
  | .dk => 3
  | .ct => 4

/-- The command words a script's mnemonics stand for, from 30_encoding.md R81. -/
def scriptWord : Instr → Word
  | .venc => 0x10#64
  | .vdec => 0x11#64
  | .enc => 0x12#64
  | .dec => 0x13#64

end Sys2Proof.Machine

open Sys2Proof Sys2Proof.Machine

/-! ### Encoding -/

/-- 30_encoding.md R81: the four command words, written out from the table. -/
def Obligations.DecoderReadsTheFourCommandWords : Prop :=
  decode 0x00000010#32 = .ok .venc ∧ decode 0x00000011#32 = .ok .vdec ∧
    decode 0x00000012#32 = .ok .enc ∧ decode 0x00000013#32 = .ok .dec

/-- 30_encoding.md R81, R84: a word decodes to a command exactly when it is that command's word. -/
def Obligations.DecodeIsInverseOfEncode : Prop :=
  ∀ (w : CommandWord) (i : Instr), decode w = .ok i ↔ w = encode i

/-- 30_encoding.md R84: illegal are the words with `RSV` (bits 31:8) not zero, and those with `OP` (bits 7:0) not
in the map. -/
def Obligations.IllegalWordsAreRejected : Prop :=
  ∀ w : CommandWord, (∃ e, decode w = .error e) ↔
    (w.toNat / 256 ≠ 0 ∨ w.toNat % 256 < 0x10 ∨ 0x13 < w.toNat % 256)

/-! ### Steps -/

/-- The engine's step runs the command that `CMD` holds (00_scope.md R11; 10_state.md R33; D31): when the engine
moves, `STATUS.BUSY` is 1 and the word decodes, the step is `exec` of the command at this state, the
schedule's entry used. -/
def Obligations.EngineStepRunsTheLatchedCommand : Prop :=
  ∀ (s : State) (i : Instr), nextTurn s = .engine → busy s = true → decode (fetch s) = .ok i →
    step s = exec i (dropTurn s)

/-- 60_exceptions.md R175, with 30_encoding.md R84: an illegal word ends with `BAD_CMD`, and nothing but the
status and the error record changes, whatever the lengths and the buffers hold. -/
def Obligations.IllegalWordEndsInBadCmd : Prop :=
  ∀ (s : State) (e : DecodeError), nextTurn s = .engine → busy s = true → decode (fetch s) = .error e →
    ∃ t, step s = .next t ∧ endedInError (dropTurn s) t 4#3 0#2 0#32 0#32

/-- A command word placed with `withFetchWord` is the very next thing that runs (model's choice, log 9). -/
def Obligations.PlacedCommandRunsNext : Prop :=
  ∀ (s : State) (i : Instr),
    step (s.withFetchWord 32 (encode i).toNat) = exec i (startCommand (encode i) s)

/-- 70_reset_and_hazards.md R206: one engine step ends the command, with `DONE` or `ERROR`. The premise is what
the host owes (R203): without it the spec gives no result (93_implementation_defined.md U3). -/
def Obligations.EngineStepEndsTheCommand : Prop :=
  ∀ s : State, nextTurn s = .engine → busy s = true →
    (∀ i, decode (fetch s) = .ok i → inputsWritten i s) →
    ∃ t, step s = .next t ∧ busy t = false ∧
      (t.regs.status = statusDone ∨ t.regs.status = statusError)

/-- 20_memory.md R59: "an engine access is never out of range and never faults", from every state. -/
def Obligations.NoStepFaults : Prop :=
  ∀ (s : State) (f : Fault), step s ≠ .fault f

/-- Where a step gives no next state, the engine was running `ENC` or `DEC`, past its checks, and the refusal names
a never-written element below n of one of that command's input buffers (93_implementation_defined.md U3,
D18; that such a command is refused is U3's treatment, and the order of the lanes in which the named
element is the first is the model's choice, log 4). -/
def Obligations.StepRefusesOnlyNeverWrittenInputs : Prop :=
  ∀ (s : State) (r : Refusal), step s = .refused r →
    nextTurn s = .engine ∧ busy s = true ∧
    ∃ (i : Instr) (sp : Space) (j : Nat), decode (fetch s) = .ok i ∧ passesChecks i s ∧
      r = .neverWritten sp j ∧ j < s.regs.dataLen.toNat ∧ inputNeverWritten i s sp j

/-- The other direction: `ENC` or `DEC` past its checks with some never-written element below n in one of its input
buffers is refused, whichever element it is (93_implementation_defined.md U3, D18: "Model treatment:
refuse"; 70_reset_and_hazards.md R203; which element the refusal names is the model's choice, log 4, and
not said here). -/
def Obligations.NeverWrittenInputIsRefused : Prop :=
  ∀ (s : State) (i : Instr) (sp : Space) (j : Nat), nextTurn s = .engine → busy s = true →
    decode (fetch s) = .ok i → passesChecks i s → j < s.regs.dataLen.toNat → inputNeverWritten i s sp j →
    ∃ (sp' : Space) (j' : Nat), step s = .refused (.neverWritten sp' j')

/-! ### The Validation Gate -/

/-- 41_validation_gate.md R130, R131: the gate as functions. -/
def Obligations.GateChecksLengths : Prop :=
  (∀ n : Len, gateEnc n = if n.toNat = 0 then some (.dataLength .data) else none) ∧
  (∀ n m : Len, gateDec n m =
    if n.toNat = 0 then some (.dataLength .ciphertext)
    else if n.toNat = m.toNat then none else some (.ivLengthMismatch m n))

/-- 41_validation_gate.md R133: `VENC` in every state. -/
def Obligations.VencChecksDataLength : Prop :=
  decode 0x00000010#32 = .ok .venc ∧
  ∀ s : State,
    (s.regs.dataLen = 0#32 → ∃ t, exec .venc s = .next t ∧ endedInError s t 1#3 1#2 0#32 0#32) ∧
    (s.regs.dataLen ≠ 0#32 → ∃ t, exec .venc s = .next t ∧ endedInSuccess s t ∧ t.mem = s.mem)

/-- 41_validation_gate.md R134: `VDEC` in every state. -/
def Obligations.VdecChecksBothLengths : Prop :=
  decode 0x00000011#32 = .ok .vdec ∧
  ∀ s : State,
    (s.regs.dataLen = 0#32 → ∃ t, exec .vdec s = .next t ∧ endedInError s t 1#3 2#2 0#32 0#32) ∧
    (s.regs.dataLen ≠ 0#32 → s.regs.dataLen ≠ s.regs.ivLen →
      ∃ t, exec .vdec s = .next t ∧ endedInError s t 2#3 0#2 s.regs.ivLen s.regs.dataLen) ∧
    (s.regs.dataLen ≠ 0#32 → s.regs.dataLen = s.regs.ivLen →
      ∃ t, exec .vdec s = .next t ∧ endedInSuccess s t ∧ t.mem = s.mem)

/-- 41_validation_gate.md R135 (second half), 10_state.md R26: `VENC` and `ENC` do not read `IV_LEN`. Whatever it
holds, they end alike and leave the same buffers. -/
def Obligations.EncryptPathIgnoresIvLength : Prop :=
  ∀ (i : Instr) (s t : State) (m : Len), i.decryptPath = false → exec i s = .next t →
    ∃ t', exec i { s with regs := { s.regs with ivLen := m } } = .next t' ∧
      t'.regs = { t.regs with ivLen := m } ∧ t'.mem = t.mem

/-! ### The forward engine -/

/-- 42_forward_transform.md R142: `ENC` in every state. The lanes `ls` are what elements 0..n−1 of `ROT`, `IV` and
`DK` hold; the spec gives no result where one was never written (R203). -/
def Obligations.EncEncryptsIntoCt : Prop :=
  decode 0x00000012#32 = .ok .enc ∧
  ∀ s : State,
    (s.regs.dataLen = 0#32 → ∃ t, exec .enc s = .next t ∧ endedInError s t 1#3 1#2 0#32 0#32) ∧
    (s.regs.dataLen ≠ 0#32 → s.regs.capacity.toNat < s.regs.dataLen.toNat →
      ∃ t, exec .enc s = .next t ∧ endedInError s t 5#3 0#2 0#32 0#32) ∧
    (∀ ls : List EncLane, s.regs.dataLen ≠ 0#32 → s.regs.dataLen.toNat ≤ s.regs.capacity.toNat →
      ls.length = s.regs.dataLen.toNat →
      (∀ (j : Nat) (h : j < ls.length), bufGet s.mem.rot j = some ls[j].rot ∧
        bufGet s.mem.iv j = some ls[j].iv ∧ bufGet s.mem.dk j = some ls[j].dk) →
      ∃ t, exec .enc s = .next t ∧ endedInSuccess s t ∧
        t.mem.rot = s.mem.rot ∧ t.mem.iv = s.mem.iv ∧ t.mem.dk = s.mem.dk ∧
        ∀ j, bufGet t.mem.ct j =
          if j < s.regs.dataLen.toNat then (forward ls)[j]? else bufGet s.mem.ct j)

/-- 42_forward_transform.md R141: `Forward`, with the words of the rule written out, and by the ring law the value
of the same expression over the integers. -/
def Obligations.ForwardIsTheDocumentsFormula : Prop :=
  ∀ (ls : List EncLane), (forward ls).length = ls.length ∧
    ∀ (j : Nat) (h : j < ls.length),
      (forward ls)[j]? = some (
        let s1 := wsum (ls.map fun l => wmul (sext64 l.dk) (sext64 l.dk))
        let s2 := wsum (ls.map fun l => wmul (sext64 l.dk) (wsub (sext64 l.rot) (sext64 l.iv)))
        wsub (wmul (sext64 ls[j].rot) s1) (dbl (wmul (sext64 ls[j].dk) s2))) ∧
      (forward ls)[j]? = some (word (encInt ls ls[j]))

/-- 42_forward_transform.md R144: the corner cases (a) to (e); under an all-zero key the divisor of a later `DEC`
is the zero word. In (e) each of the two runs is of an `ENC` started by a write to `CMD` (10_state.md R24). -/
def Obligations.EncCornerCases : Prop :=
  (∀ ls : List EncLane, (∀ l ∈ ls, l.dk = 0#8) → forward ls = ls.map fun _ => 0#64) ∧
  (∀ ds : List DecLane, (∀ l ∈ ds, l.dk = 0#8) → divisorOf ds = 0#64) ∧
  (∀ l : EncLane, forward [l] =
    [word (asSigned l.dk ^ 2 * (2 * asSigned l.iv - asSigned l.rot))]) ∧
  (∀ ls : List EncLane, (∀ l ∈ ls, l.rot = l.iv) →
    forward ls = ls.map fun l => word (asSigned l.rot * encT ls)) ∧
  (∀ l : EncLane, l.rot = 0xC8#8 → l.r = word (-56)) ∧
  (∀ s t : State, exec .enc (startCommand (encode .enc) s) = .next t →
    ∃ t', exec .enc (startCommand (encode .enc) t) = .next t' ∧ t'.regs = t.regs ∧
      t'.mem.rot = t.mem.rot ∧ t'.mem.iv = t.mem.iv ∧ t'.mem.dk = t.mem.dk ∧
      ∀ j, bufGet t'.mem.ct j = bufGet t.mem.ct j)

/-- 42_forward_transform.md R145: the matrix form, and `M·M = S1²·I`. -/
def Obligations.ForwardIsAMatrixVectorProduct : Prop :=
  ∀ (ls : List EncLane) (i : Fin ls.length),
    (forward ls)[i.val]? = some (word (
      (∑ j : Fin ls.length, encMatrix ls i j * asSigned ls[j].rot) +
        2 * (asSigned ls[i].dk * ∑ j : Fin ls.length, asSigned ls[j].dk * asSigned ls[j].iv))) ∧
    ∀ j : Fin ls.length, (∑ l : Fin ls.length, encMatrix ls i l * encMatrix ls l j) =
      if i = j then encT ls ^ 2 else 0

/-- 42_forward_transform.md R146: the bounds, and that no wraparound occurs in `ENC`. -/
def Obligations.ForwardNeverWraps : Prop :=
  ∀ (ls : List EncLane) (j : Nat) (h : j < ls.length), ls.length ≤ 2 ^ 32 - 1 →
    encT ls ≤ ls.length * 2 ^ 14 ∧ |encS2 ls| < ls.length * 2 ^ 15 ∧
    |encInt ls ls[j]| ≤ 5 * ls.length * 2 ^ 21 ∧ |encInt ls ls[j]| < 2 ^ 56 ∧
    ((forward ls)[j]?.map BitVec.toInt) = some (encInt ls ls[j])

/-! ### The inverse engine -/

/-- 43_inverse_transform.md R152: `DEC` in every state. The lanes `ls` are what elements 0..n−1 of `CT`, `IV` and
`DK` hold. -/
def Obligations.DecDecryptsIntoRot : Prop :=
  decode 0x00000013#32 = .ok .dec ∧
  ∀ s : State,
    (s.regs.dataLen = 0#32 → ∃ t, exec .dec s = .next t ∧ endedInError s t 1#3 2#2 0#32 0#32) ∧
    (s.regs.dataLen ≠ 0#32 → s.regs.dataLen ≠ s.regs.ivLen →
      ∃ t, exec .dec s = .next t ∧ endedInError s t 2#3 0#2 s.regs.ivLen s.regs.dataLen) ∧
    (s.regs.dataLen ≠ 0#32 → s.regs.dataLen = s.regs.ivLen →
      s.regs.capacity.toNat < s.regs.dataLen.toNat →
      ∃ t, exec .dec s = .next t ∧ endedInError s t 5#3 0#2 0#32 0#32) ∧
    (∀ ls : List DecLane, s.regs.dataLen ≠ 0#32 → s.regs.dataLen = s.regs.ivLen →
      s.regs.dataLen.toNat ≤ s.regs.capacity.toNat → ls.length = s.regs.dataLen.toNat →
      (∀ (j : Nat) (h : j < ls.length), bufGet s.mem.ct j = some ls[j].ct ∧
        bufGet s.mem.iv j = some ls[j].iv ∧ bufGet s.mem.dk j = some ls[j].dk) →
      (divisorOf ls = 0#64 → ∃ t, exec .dec s = .next t ∧ endedInError s t 3#3 0#2 0#32 0#32) ∧
      (divisorOf ls ≠ 0#64 → ∃ t bs, exec .dec s = .next t ∧ inverse ls = some bs ∧
        endedInSuccess s t ∧ t.mem.ct = s.mem.ct ∧ t.mem.iv = s.mem.iv ∧ t.mem.dk = s.mem.dk ∧
        ∀ j, bufGet t.mem.rot j =
          if j < s.regs.dataLen.toNat then bs[j]? else bufGet s.mem.rot j))

/-- 43_inverse_transform.md R151: `Inverse` gives `ZeroDivisor` exactly when `S1SQ` is the zero word, and otherwise
one byte per lane, with the words of the rule written out; and by the ring law the same with the numerator
and the divisor as the words of the integer expressions. -/
def Obligations.InverseIsTheDocumentsFormula : Prop :=
  ∀ ls : List DecLane,
    let s1 := wsum (ls.map fun l => wmul (sext64 l.dk) (sext64 l.dk))
    let s2 := wsum (ls.map fun l => wmul (sext64 l.dk) l.ct)
    let s3 := wsum (ls.map fun l => wmul (sext64 l.dk) (sext64 l.iv))
    let s1sq := wmul s1 s1
    (inverse ls = none ↔ s1sq = 0#64) ∧ s1sq = word (decT ls * decT ls) ∧
    ∀ bs, inverse ls = some bs → bs.length = ls.length ∧
      ∀ (j : Nat) (h : j < ls.length),
        (∃ divisor : s1sq ≠ 0#64, bs[j]? = some (trunc8 (sdiv
          (wsub (wmul (wadd ls[j].ct (dbl (wmul (sext64 ls[j].dk) s3))) s1)
            (dbl (wmul (sext64 ls[j].dk) s2))) s1sq divisor))) ∧
        bs[j]? = some ((word (Int.tdiv (word (decInt ls ls[j])).toInt
          (word (decT ls * decT ls)).toInt)).extractLsb' 0 8)

/-- 43_inverse_transform.md R158: when the divisor is zero or minus one. -/
def Obligations.DivisorIsZeroExactlyWhen : Prop :=
  ∀ ls : List DecLane, ls.length ≤ 2 ^ 32 - 1 →
    decT ls ≤ ls.length * 2 ^ 14 ∧ decT ls < 2 ^ 46 ∧
    (wsum (ls.map decTerm1)).toInt = decT ls ∧
    (divisorOf ls = 0#64 ↔ (2 : Int) ^ 32 ∣ decT ls) ∧
    (ls.length < 262144 → decT ls < 2 ^ 32 ∧ (divisorOf ls = 0#64 ↔ ∀ l ∈ ls, l.dk = 0#8)) ∧
    (ls.length = 262144 → (∀ l ∈ ls, l.dk = 0x80#8) → decT ls = 2 ^ 32 ∧ divisorOf ls = 0#64) ∧
    divisorOf ls ≠ word (-1) ∧
    ((divisorOf ls).toInt < 0 → 2 ^ 63 ≤ decT ls ^ 2)

/-- The identity behind 43_inverse_transform.md R157 and R159, without any bound: on a ciphertext that `Forward`
made, every numerator is the word of `T²·r[i]`. -/
def Obligations.NumeratorOfACiphertextIsASquareMultiple : Prop :=
  ∀ (ls : List EncLane) (j : Nat) (h : j < ls.length),
    let ds := decLanes ls (forward ls)
    ds[j]?.map (decNumerator (wsum (ds.map decTerm1)) (wsum (ds.map decTerm2)) (wsum (ds.map decTerm3))) =
      some (word (encT ls ^ 2 * asSigned ls[j].rot))

/-- 43_inverse_transform.md R157: the round-trip theorem with its exact bound, its form for n ≤ 16384, the failure
just beyond the bound, and the only two ways it can fail: a `T²·r[i]` outside the signed words, or a
divisor that is the zero word. -/
def Obligations.RoundTripRestoresEveryByte : Prop :=
  (∀ ls : List EncLane, 1 ≤ encT ls → encT ls ≤ 2 ^ 28 →
    inverse (decLanes ls (forward ls)) = some (ls.map fun l => l.rot)) ∧
  (∀ ls : List EncLane, ls.length ≤ 16384 → (∃ l ∈ ls, l.dk ≠ 0#8) →
    inverse (decLanes ls (forward ls)) = some (ls.map fun l => l.rot)) ∧
  (∀ v : Byte, let ls := List.replicate 16385 { rot := 0x80#8, iv := v, dk := 0x80#8 : EncLane }
    encT ls = 2 ^ 28 + 2 ^ 14 ∧
      inverse (decLanes ls (forward ls)) = some (List.replicate 16385 0x7F#8)) ∧
  (∀ ls : List EncLane,
    (∀ l ∈ ls, -2 ^ 63 ≤ encT ls ^ 2 * asSigned l.rot ∧ encT ls ^ 2 * asSigned l.rot < 2 ^ 63) →
    divisorOf (decLanes ls (forward ls)) ≠ 0#64 →
    inverse (decLanes ls (forward ls)) = some (ls.map fun l => l.rot))

/-- 43_inverse_transform.md R156 in the exact form of 90_conflicts.md C2: `ENC`, then `DEC` in any state with the
same ciphertext, IV, key and lengths (`ROT` may have been overwritten), gives `ROT[0..n−1]` back. -/
def Obligations.EncThenDecRestoresRot : Prop :=
  ∀ (s t u : State) (ls : List EncLane), loadEncLanes s = .ok ls → 1 ≤ encT ls → encT ls ≤ 2 ^ 28 →
    exec .enc s = .next t → t.regs.status = statusDone →
    u.mem.ct = t.mem.ct → u.mem.iv = t.mem.iv → u.mem.dk = t.mem.dk →
    u.regs.dataLen = s.regs.dataLen → u.regs.ivLen = s.regs.dataLen →
    u.regs.capacity = s.regs.capacity →
    ∃ w, exec .dec u = .next w ∧ w.regs.status = statusDone ∧
      ∀ j, j < s.regs.dataLen.toNat → bufGet w.mem.rot j = bufGet s.mem.rot j

/-! ### Engine errors and frames -/

/-- 60_exceptions.md R178: `raise`, as one atomic change. -/
def Obligations.RaiseRecordsTheError : Prop :=
  ∀ s : State,
    (∀ b, endedInError s (raise (.dataLength b) s) 1#3 (match b with | .data => 1#2 | .ciphertext => 2#2)
      0#32 0#32) ∧
    (∀ m n, endedInError s (raise (.ivLengthMismatch m n) s) 2#3 0#2 m n) ∧
    endedInError s (raise .zeroDivisor s) 3#3 0#2 0#32 0#32 ∧
    endedInError s (raise .badCmd s) 4#3 0#2 0#32 0#32 ∧
    endedInError s (raise .capacity s) 5#3 0#2 0#32 0#32

/-- 60_exceptions.md R171, R177 for the four commands: a command that ends in `ERROR` ends with a row of R171's
table, under that row's condition, and with the first one in R177's order. -/
def Obligations.EngineErrorsAreThoseOfTheTable : Prop :=
  ∀ (i : Instr) (s t : State), exec i s = .next t → t.regs.status = statusError →
    let n := s.regs.dataLen
    let m := s.regs.ivLen
    (n = 0#32 ∧ endedInError s t 1#3 (if i.decryptPath then 2#2 else 1#2) 0#32 0#32) ∨
    (n ≠ 0#32 ∧ i.decryptPath = true ∧ n ≠ m ∧ endedInError s t 2#3 0#2 m n) ∨
    (n ≠ 0#32 ∧ (i.decryptPath = true → n = m) ∧ i.runsTransform = true ∧
      s.regs.capacity.toNat < n.toNat ∧ endedInError s t 5#3 0#2 0#32 0#32) ∨
    (n ≠ 0#32 ∧ n = m ∧ i = .dec ∧ n.toNat ≤ s.regs.capacity.toNat ∧
      (∃ ls, loadDecLanes s = .ok ls ∧ divisorOf ls = 0#64) ∧ endedInError s t 3#3 0#2 0#32 0#32)

/-- 60_exceptions.md R179: a command that ends with an engine error, `BAD_CMD` among them, has written no buffer
element. -/
def Obligations.FailedCommandWritesNothing : Prop :=
  ∀ (s t : State), engineStep s = .next t → busy s = true → t.regs.status = statusError → t.mem = s.mem

/-- 20_memory.md R60 and the frame of every command: which buffers it may write and where, and the registers, the
host and all else the host could see it leaves alone. The accumulators are left out: their value after a
command is unspecified (10_state.md R32). -/
def Obligations.CommandsWriteOnlyTheirOutput : Prop :=
  ∀ (i : Instr) (s t : State), exec i s = .next t →
    t.mem.iv = s.mem.iv ∧ t.mem.dk = s.mem.dk ∧
    (i ≠ .enc → t.mem.ct = s.mem.ct) ∧ (i ≠ .dec → t.mem.rot = s.mem.rot) ∧
    (∀ j, s.regs.dataLen.toNat ≤ j → bufGet t.mem.ct j = bufGet s.mem.ct j ∧
      bufGet t.mem.rot j = bufGet s.mem.rot j) ∧
    t.regs.cmd = s.regs.cmd ∧ t.regs.dataLen = s.regs.dataLen ∧ t.regs.ivLen = s.regs.ivLen ∧
    t.regs.capacity = s.regs.capacity ∧ t.host = s.host ∧
    (t.regs.status = statusDone ∨ t.regs.status = statusError)

/-- 10_state.md R34: the result of a command is a function of `CMD`, the lengths and elements 0..n−1 of its input
buffers: two states that agree on them end with the same registers and the same output elements. -/
def Obligations.ResultDependsOnInputsOnly : Prop :=
  ∀ (i : Instr) (s s' t : State), sameInputs i s s' → exec i s = .next t →
    ∃ t', exec i s' = .next t' ∧ t'.regs = t.regs ∧
      (t.regs.status = statusDone → ∀ j, j < s.regs.dataLen.toNat →
        (i = .enc → bufGet t'.mem.ct j = bufGet t.mem.ct j) ∧
        (i = .dec → bufGet t'.mem.rot j = bufGet t.mem.rot j))

/-- 10_state.md R24, 60_exceptions.md R180: the transitions of `STATUS` and of the error record, and no others:
nothing changes, or a start by an accepted host write to `CMD` not while `BUSY`, or the engine's end with
success or with an error, or a reset. -/
def Obligations.StatusFollowsItsTransitions : Prop :=
  ∀ s t : State, step s = .next t →
    let record := fun u : State => (u.regs.errCode, u.regs.errBuf, u.regs.errIvLen, u.regs.errDataLen)
    let clear := (0#3, 0#2, 0#32, 0#32)
    (t.regs.status = s.regs.status ∧ record t = record s) ∨
    (nextTurn s = .host ∧ busy s = false ∧ t.regs.status = statusBusy ∧ record t = clear ∧
      ∃ (d : Word) (e : Option Response) (rest : List HostOp),
        s.host.script = .tx (.hostWrite 0 0#32 d) e :: rest ∧
        (perform (dropTurn s) (.hostWrite 0 0#32 d)).2 = .ok ∧ t.regs.cmd = d.setWidth 32) ∨
    (nextTurn s = .engine ∧ busy s = true ∧ t.regs.status = statusDone ∧ record t = record s) ∨
    (nextTurn s = .engine ∧ busy s = true ∧ t.regs.status = statusError ∧ t.regs.errCode ≠ 0#3) ∨
    (nextTurn s = .reset ∧ t.regs.status = statusIdle ∧ record t = clear)

/-- 42_forward_transform.md R147, 43_inverse_transform.md R160: no lane order is architected. Permuting the lanes
permutes the outputs with them. -/
def Obligations.LaneOrderIsIrrelevant : Prop :=
  (∀ ls ls' : List EncLane, ls.Perm ls' → (ls.zip (forward ls)).Perm (ls'.zip (forward ls'))) ∧
  (∀ ls ls' : List DecLane, ls.Perm ls' →
    (inverse ls = none ↔ inverse ls' = none) ∧
    ∀ bs bs', inverse ls = some bs → inverse ls' = some bs' → (ls.zip bs).Perm (ls'.zip bs'))

/-! ### The sequencer -/

/-- 10_state.md R33, 70_reset_and_hazards.md R205 (O(n), always terminates), D31: from the sequencer's first phase,
2·n + 6 small steps are enough for any command, and they end exactly as the one atomic step does, stops
included. Model's choices in it: the cut into small steps (log 6), that both draw the same free values for
the accumulators (log 3), and which never-written element a refusal names (log 4). -/
def Obligations.SequencerRefinesTheAtomicStep : Prop :=
  ∀ (s : State) (k : Nat), busy s = true → s.eng.phase = .decode →
    2 * s.regs.dataLen.toNat + 6 ≤ k → microRun k s = engineStep s

/-! ### State and reset -/

/-- 10_state.md R36: the state after reset, for every NMAX. -/
def Obligations.ResetLeavesTheStatedValues : Prop :=
  (∀ nmax : Len, let s := State.resetWith nmax
    s.regs = { cmd := 0#32, status := 0b000#3, dataLen := 0#32, ivLen := 0#32, errCode := 0#3, errBuf := 0#2,
               errIvLen := 0#32, errDataLen := 0#32, capacity := nmax } ∧
    (∀ j, bufGet s.mem.rot j = none ∧ bufGet s.mem.iv j = none ∧ bufGet s.mem.dk j = none ∧
      bufGet s.mem.ct j = none) ∧
    s.eng.phase = .idle) ∧
  ∃ nmax : Len, 1 ≤ nmax.toNat ∧ State.reset = State.resetWith nmax

/-- 70_reset_and_hazards.md R200, R201: a reset can happen in any state, `BUSY` among them; it puts every control
register at its reset value, makes every element never written, and records no error. `CAPACITY` keeps
its value (10_state.md R31) and the host its script and log. -/
def Obligations.ResetEventAbandonsEverything : Prop :=
  ∀ s : State, nextTurn s = .reset → ∃ t, step s = .next t ∧
    t.regs = (State.resetWith s.regs.capacity).regs ∧ t.regs.status = statusIdle ∧
    (∀ j, bufGet t.mem.rot j = none ∧ bufGet t.mem.iv j = none ∧ bufGet t.mem.dk j = none ∧
      bufGet t.mem.ct j = none) ∧
    t.eng.phase = .idle ∧ t.host = (dropTurn s).host

/-- The invariant holds after reset, for every NMAX (10_state.md R36, R37). Model's choices in `Legal`: the canonical
form of the buffers (log 4) and the sequencer's phase between two steps (log 10). -/
def Obligations.ResetStateIsLegal : Prop :=
  ∀ nmax : Len, Legal (State.resetWith nmax)

/-- 10_state.md R37 (a) to (d), with R27, R28 and R30, and no buffer element at or above NMAX (R21, R22): every step
keeps it, from every state that has it. Model's choices in `Legal`: the canonical form of the buffers
(log 4) and the sequencer's phase between two steps (log 10, from R33 and R36). -/
def Obligations.StepKeepsTheStateLegal : Prop :=
  ∀ s t : State, Legal s → step s = .next t → Legal t

/-- The canonical form of the buffers (model's choice of data, log 4, for the buffers of 10_state.md R21, R22) is kept
by every step, from every state that has it, legal otherwise or not. -/
def Obligations.StepKeepsBuffersCanonical : Prop :=
  ∀ s t : State, s.mem.wf → step s = .next t → t.mem.wf

/-- 10_state.md R31: `CAPACITY` is not changed by any step, a reset among them, and a read of it returns it
zero-extended. -/
def Obligations.CapacityIsConstant : Prop :=
  (∀ s t : State, step s = .next t → t.regs.capacity = s.regs.capacity) ∧
  (∀ s : State, busy s = false →
    perform s (.hostRead 0 8#32) = (s, .okData (BitVec.ofNat 64 s.regs.capacity.toNat)))

/-- 10_state.md R37 (e): while `BUSY`, no number of moves of the host changes a register, an element or the
engine. -/
def Obligations.HostCannotDisturbARunningCommand : Prop :=
  ∀ (s : State) (k : Nat), busy s = true →
    (hostTurn^[k] s).regs = s.regs ∧ (hostTurn^[k] s).mem = s.mem ∧ (hostTurn^[k] s).eng = s.eng ∧
      (hostTurn^[k] s).draws = s.draws

/-- 20_memory.md R61 (c), 70_reset_and_hazards.md R206: however many moves the host makes between the start and the
engine's step, the step ends the command as it would have at once. -/
def Obligations.EveryScheduleGivesTheSynchronousResult : Prop :=
  ∀ (s t : State) (k : Nat), busy s = true → engineStep s = .next t →
    ∃ t', engineStep (hostTurn^[k] s) = .next t' ∧ blockView t' = blockView t

/-! ### The host port -/

/-- 20_memory.md R54: a transaction is refused in exactly these cases, and a refused one changes nothing. -/
def Obligations.PortRefusesExactlyTheListedCases : Prop :=
  ∀ (s : State) (x : Transaction),
    ((perform s x).2 = .err ↔
      (5 ≤ x.space ∨
       (x.space = 0 ∧ 9 ≤ x.index.toNat) ∨
       (1 ≤ x.space ∧ x.space ≤ 4 ∧ s.regs.capacity.toNat ≤ x.index.toNat) ∨
       (x.isWrite = true ∧ x.space = 0 ∧ (x.index.toNat = 1 ∨ (4 ≤ x.index.toNat ∧ x.index.toNat ≤ 8))) ∨
       (busy s = true ∧ x ≠ .hostRead 0 1#32))) ∧
    ((perform s x).2 = .err → (perform s x).1 = s)

/-- 20_memory.md R52: what a read that is not refused returns; it changes nothing. A never-written element gives
some value, of which nothing is said. -/
def Obligations.HostReadReturnsTheElement : Prop :=
  ∀ (s : State) (sp : Nat) (ix : BitVec 32), (perform s (.hostRead sp ix)).2 ≠ .err →
    ∃ d, perform s (.hostRead sp ix) = (s, .okData d) ∧
      (sp = 1 → ∀ b, bufGet s.mem.rot ix.toNat = some b → d = b.setWidth 64) ∧
      (sp = 2 → ∀ b, bufGet s.mem.iv ix.toNat = some b → d = b.setWidth 64) ∧
      (sp = 3 → ∀ b, bufGet s.mem.dk ix.toNat = some b → d = b.setWidth 64) ∧
      (sp = 4 → ∀ w, bufGet s.mem.ct ix.toNat = some w → d = w) ∧
      (sp = 0 →
        (ix = 0#32 → d.toNat = s.regs.cmd.toNat) ∧ (ix = 1#32 → d.toNat = s.regs.status.toNat) ∧
        (ix = 2#32 → d.toNat = s.regs.dataLen.toNat) ∧ (ix = 3#32 → d.toNat = s.regs.ivLen.toNat) ∧
        (ix = 4#32 → d.toNat = s.regs.errCode.toNat) ∧ (ix = 5#32 → d.toNat = s.regs.errBuf.toNat) ∧
        (ix = 6#32 → d.toNat = s.regs.errIvLen.toNat) ∧
        (ix = 7#32 → d.toNat = s.regs.errDataLen.toNat) ∧
        (ix = 8#32 → d.toNat = s.regs.capacity.toNat))

/-- 20_memory.md R53, with the start of 10_state.md R24: what a write that is not refused does, and that it does
nothing else. -/
def Obligations.HostWriteStoresTheData : Prop :=
  ∀ (s : State) (sp : Nat) (ix : BitVec 32) (d : Word), (perform s (.hostWrite sp ix d)).2 ≠ .err →
    ∃ t, perform s (.hostWrite sp ix d) = (t, .ok) ∧ t.host = s.host ∧ t.draws = s.draws ∧
      ((sp, ix) ≠ (0, 0#32) → t.eng = s.eng) ∧
      (sp = 1 → t.regs = s.regs ∧ t.mem = { s.mem with rot := bufSet s.mem.rot ix.toNat (d.setWidth 8) }) ∧
      (sp = 2 → t.regs = s.regs ∧ t.mem = { s.mem with iv := bufSet s.mem.iv ix.toNat (d.setWidth 8) }) ∧
      (sp = 3 → t.regs = s.regs ∧ t.mem = { s.mem with dk := bufSet s.mem.dk ix.toNat (d.setWidth 8) }) ∧
      (sp = 4 → t.regs = s.regs ∧ t.mem = { s.mem with ct := bufSet s.mem.ct ix.toNat d }) ∧
      (sp = 0 → t.mem = s.mem ∧
        (ix = 0#32 → t.regs = { s.regs with
          cmd := d.setWidth 32, status := statusBusy, errCode := 0#3, errBuf := 0#2, errIvLen := 0#32,
          errDataLen := 0#32 }) ∧
        (ix = 2#32 → t.regs = { s.regs with dataLen := d.setWidth 32 }) ∧
        (ix = 3#32 → t.regs = { s.regs with ivLen := d.setWidth 32 }))

/-- 20_memory.md R57 (and R55): after a write that is not refused, a read of the same element returns the data cut
to the element's width, and every other written element, and every register, reads as before. -/
def Obligations.ReadAfterWriteReturnsTheWrite : Prop :=
  ∀ (s : State) (sp : Nat) (ix : BitVec 32) (d : Word), 1 ≤ sp → sp ≤ 4 →
    (perform s (.hostWrite sp ix d)).2 = .ok →
    let t := (perform s (.hostWrite sp ix d)).1
    (perform t (.hostRead sp ix)).2 = .okData (if sp = 4 then d else (d.setWidth 8).setWidth 64) ∧
    ∀ (sp' : Nat) (ix' : BitVec 32), (sp', ix') ≠ (sp, ix) → readSpecified s sp' ix'.toNat →
      (perform t (.hostRead sp' ix')).2 = (perform s (.hostRead sp' ix')).2

/-- 10_state.md R24: the status word a host reads, `BUSY` or not, and that the read changes nothing. -/
def Obligations.StatusCanAlwaysBeRead : Prop :=
  ∀ s : State, perform s (.hostRead 0 1#32) = (s, .okData (s.regs.status.setWidth 64))

/-! ### The host -/

/-- 20_memory.md R51: the host's step. When the host moves, the step is one move of the host with the schedule's
entry used, and at a script whose head is a transaction that move performs exactly that one transaction:
the block is as `perform` leaves it, and the response is answered before the next transaction is issued.
With nothing left to issue nothing changes but the schedule. Model's choices: the script and the schedule
as data (log 7), the log of the responses (log 8), and that the response a line states is only kept in it
(log 18). -/
def Obligations.HostStepPerformsOneTransaction : Prop :=
  ∀ s : State, nextTurn s = .host →
    step s = .next (hostTurn (dropTurn s)) ∧
    (s.host.script = [] → step s = .next (dropTurn s)) ∧
    ∀ (x : Transaction) (e : Option Response) (rest : List HostOp), s.host.script = .tx x e :: rest →
      let p := perform (dropTurn s) x
      step s = .next { p.1 with host :=
        { script := rest
          schedule := s.host.schedule.tail
          log := { tx := x, response := p.2, expect := e } :: s.host.log } }

/-- 30_encoding.md R87, `WAIT`: while `BUSY` the script stays, and once `BUSY` reads 0 it goes on. Nothing of the
block changes. Model's choices: one move of the host is one poll, a read of `STATUS`, and the `WAIT` stays
in the script until it ends (log 18); the response is kept in the host's log (log 8). -/
def Obligations.WaitPollsUntilNotBusy : Prop :=
  ∀ (s : State) (rest : List HostOp), s.host.script = .wait :: rest →
    (hostTurn s).host.script = (if busy s then .wait :: rest else rest) ∧
    (hostTurn s).host.log =
      { tx := .hostRead 0 1#32, response := .okData (s.regs.status.setWidth 64), expect := none } ::
        s.host.log ∧
    blockView (hostTurn s) = blockView s

/-- 30_encoding.md R86: the transaction each of the four transaction lines stands for, with the register indices of
10_state.md R23 to R31 and the space numbers of 20_memory.md R50, and that a script's lines are issued in
order. The response a line states goes with its transaction and changes nothing in it (model's choice,
log 18). -/
def Obligations.ScriptLinesAreTransactions : Prop :=
  (∀ (r : RegName) (v : Word) (e : Option Response),
    expandLine (.wr r v e) = [.tx (.hostWrite 0 (scriptIndex r) v) e]) ∧
  (∀ (r : RegName) (e : Option Response), expandLine (.rd r e) = [.tx (.hostRead 0 (scriptIndex r)) e]) ∧
  (∀ (sp : Space) (j : BitVec 32) (v : Word) (e : Option Response),
    expandLine (.wre sp j v e) = [.tx (.hostWrite (scriptSpace sp) j v) e]) ∧
  (∀ (sp : Space) (j : BitVec 32) (e : Option Response),
    expandLine (.rde sp j e) = [.tx (.hostRead (scriptSpace sp) j) e]) ∧
  expandScript [] = [] ∧
  ∀ (l : Line) (ls : List Line), expandScript (l :: ls) = expandLine l ++ expandScript ls

/-- 30_encoding.md R87: what each pseudo-line makes the host do, written as transactions. `WAIT` is the host's own
operation `.wait` (model's choice, log 18), and what it does is `WaitPollsUntilNotBusy`. In `LDV` the index
of a value at position 2^32 or above wraps modulo 2^32 (model's choice, log 19: R87 gives no expansion there). -/
def Obligations.PseudoLinesExpand : Prop :=
  (∀ i : Instr, expandLine (.command i) = [.tx (.hostWrite 0 0#32 (scriptWord i)) none]) ∧
  expandLine .wait = [.wait] ∧
  (∀ i : Instr, expandLine (.run i) = [.tx (.hostWrite 0 0#32 (scriptWord i)) none, .wait]) ∧
  (∀ (sp : Space) (vs : List Word), expandLine (.ldv sp vs) =
    (List.range vs.length).map fun j =>
      .tx (.hostWrite (scriptSpace sp) (BitVec.ofNat 32 j) (vs.getD j 0#64)) none) ∧
  (∀ n : Word, expandLine (.len n) =
    [.tx (.hostWrite 0 2#32 n) none, .tx (.hostWrite 0 3#32 n) none]) ∧
  (∀ (r : RegName) (v : Word),
    expandLine (.expectReg r v) = [.tx (.hostRead 0 (scriptIndex r)) (some (.okData v))]) ∧
  (∀ (sp : Space) (j : BitVec 32) (v : Word),
    expandLine (.expectElement sp j v) = [.tx (.hostRead (scriptSpace sp) j) (some (.okData v))])

/-- 70_reset_and_hazards.md R207: once the script is answered and `BUSY` is 0, and no event of the schedule is left,
the machine rests (model's choice: a step that changes nothing, log 7). -/
def Obligations.EndedRunRests : Prop :=
  ∀ s : State, runEnded s → s.host.schedule = [] → step s = .next s

/-! ### The arithmetic discipline -/

/-- 40_arithmetic.md R101: the two reinterpretations. -/
def Obligations.ByteReinterpretationsAreInverse : Prop :=
  (∀ b : Byte, asSigned b = b.toInt ∧
    asSigned b = (if b.toNat ≤ 127 then (b.toNat : Int) else (b.toNat : Int) - 256) ∧
    asUnsigned (asSigned b) = b) ∧
  (∀ v : Int, -128 ≤ v → v ≤ 127 → asSigned (asUnsigned v) = v ∧
    ((asUnsigned v).toNat : Int) = if 0 ≤ v then v else v + 256)

/-- 40_arithmetic.md R102: sign extension. -/
def Obligations.SignExtensionKeepsTheValue : Prop :=
  ∀ b : Byte, (sext64 b).toInt = asSigned b ∧ (sext64 b).extractLsb' 0 8 = b ∧
    (∀ j, 8 ≤ j → j < 64 → (sext64 b).getLsbD j = b.getLsbD 7) ∧
    (∀ l : EncLane, l.rot = b → l.r = sext64 b) ∧ (∀ l : EncLane, l.iv = b → l.v = sext64 b) ∧
    (∀ l : EncLane, l.dk = b → l.k = sext64 b) ∧ (∀ l : DecLane, l.iv = b → l.v = sext64 b) ∧
    (∀ l : DecLane, l.dk = b → l.k = sext64 b)

/-- 40_arithmetic.md R103, R104, R105, R106: the wrapping operations and the doubling. -/
def Obligations.RingOperationsWrap : Prop :=
  ∀ a b : Word,
    wadd a b = word (a.toNat + b.toNat) ∧ wadd a b = word (a.toInt + b.toInt) ∧
    wsub a b = word (a.toNat - b.toNat) ∧ wsub a b = word (a.toInt - b.toInt) ∧
    wmul a b = word (a.toNat * b.toNat) ∧ wmul a b = word (a.toInt * b.toInt) ∧
    dbl a = wmul a (word 2) ∧ dbl a = wadd a a ∧ (dbl a).toNat = 2 * a.toNat % 2 ^ 64

/-- 40_arithmetic.md R107: truncation toward zero, off the zero divisor and the excluded pair. -/
def Obligations.DivisionTruncatesTowardZero : Prop :=
  ∀ (a b : Word) (h : b ≠ 0#64), ¬(a = 0x8000000000000000#64 ∧ b.toInt = -1) →
    (sdiv a b h).toInt =
      a.toInt.sign * b.toInt.sign * ((a.toInt.natAbs / b.toInt.natAbs : Nat) : Int)

/-- 40_arithmetic.md R109: the overflowing quotient, and that the engine never meets it: no square is minus one. -/
def Obligations.OverflowingQuotientIsUnreachable : Prop :=
  (∀ h : word (-1) ≠ 0#64, sdiv 0x8000000000000000#64 (word (-1)) h = 0x8000000000000000#64) ∧
  (∀ a : Word, wmul a a ≠ word (-1)) ∧ ∀ ls : List DecLane, divisorOf ls ≠ word (-1)

/-- 40_arithmetic.md R110: the low byte, no saturation. -/
def Obligations.TruncationKeepsTheLowByte : Prop :=
  ∀ a : Word, (trunc8 a).toNat = a.toNat % 256 ∧ asSigned (trunc8 a) = asSigned (a.extractLsb' 0 8) ∧
    (-128 ≤ a.toInt → a.toInt ≤ 127 → trunc8 a = asUnsigned a.toInt)

/-- 40_arithmetic.md R112: the ring law. -/
def Obligations.WordIsARingHomomorphism : Prop :=
  (∀ x y : Int, wadd (word x) (word y) = word (x + y) ∧ wsub (word x) (word y) = word (x - y) ∧
    wmul (word x) (word y) = word (x * y) ∧ dbl (word x) = word (2 * x)) ∧
  (∀ v : Int, -128 ≤ v → v ≤ 127 → sext64 (asUnsigned v) = word v) ∧
  (∀ z : Int, trunc8 (word z) = BitVec.ofInt 8 (z % 256)) ∧
  (∀ (x y : Int) (h : word y ≠ 0#64), -2 ^ 63 ≤ x → x < 2 ^ 63 → -2 ^ 63 ≤ y → y < 2 ^ 63 →
    sdiv (word x) (word y) h = word (Int.tdiv x y))

/-- 40_arithmetic.md R113: a sum has one value whatever the order and the grouping of its terms. -/
def Obligations.SumOrderIsIrrelevant : Prop :=
  (∀ xs ys : List Word, xs.Perm ys → wsum xs = wsum ys) ∧
  (∀ xss : List (List Word), wsum xss.flatten = wsum (xss.map wsum)) ∧
  (∀ a b c : Word, wadd (wadd a b) c = wadd a (wadd b c) ∧ wadd a b = wadd b a ∧ wadd a 0#64 = a)
end

