-- ==== Sys2Proof/Laws/Arith.lean ====
section
/-! SUPPORT. The primitives of 40_arithmetic.md as bit-vector operations, so that proofs may use the library's
lemmas and `ring`. -/

namespace Sys2Proof.Machine

theorem word_toInt (w : Word) : word w.toInt = w := BitVec.ofInt_toInt

theorem word_add (x y : Int) : word (x + y) = word x + word y := BitVec.ofInt_add x y

theorem word_mul (x y : Int) : word (x * y) = word x * word y := BitVec.ofInt_mul x y

theorem word_neg (x : Int) : word (-x) = -word x := BitVec.ofInt_neg

theorem word_sub (x y : Int) : word (x - y) = word x - word y := by
  rw [Int.sub_eq_add_neg, word_add, word_neg, BitVec.sub_eq_add_neg]

theorem wadd_eq_add (a b : Word) : wadd a b = a + b := by
  rw [wadd, word_add, word_toInt, word_toInt]

theorem wsub_eq_sub (a b : Word) : wsub a b = a - b := by
  rw [wsub, word_sub, word_toInt, word_toInt]

theorem wmul_eq_mul (a b : Word) : wmul a b = a * b := by
  rw [wmul, word_mul, word_toInt, word_toInt]

theorem dbl_eq_add (a : Word) : dbl a = a + a := by
  apply BitVec.eq_of_toNat_eq
  simp only [dbl, BitVec.toNat_append, BitVec.extractLsb'_toNat, BitVec.toNat_add, BitVec.toNat_ofNat]
  rw [Nat.shiftRight_zero, Nat.shiftLeft_eq]
  simp
  omega

theorem wsum_nil : wsum [] = 0#64 := rfl

theorem foldl_wadd (xs : List Word) (a : Word) : xs.foldl wadd a = a + wsum xs := by
  induction xs generalizing a with
  | nil => simp [wsum]
  | cons x xs ih =>
    rw [wsum, List.foldl_cons, List.foldl_cons, ih, ih, wadd_eq_add, wadd_eq_add, BitVec.zero_add,
      BitVec.add_assoc]

theorem wsum_cons (x : Word) (xs : List Word) : wsum (x :: xs) = x + wsum xs := by
  rw [wsum, List.foldl_cons, foldl_wadd, wadd_eq_add, BitVec.zero_add]

/-- The ring law for a sum: the words of integers sum to the word of their sum (40_arithmetic.md R112). -/
theorem wsum_word {α : Type} (xs : List α) (f : α → Word) (g : α → Int) (h : ∀ x ∈ xs, f x = word (g x)) :
    wsum (xs.map f) = word (xs.map g).sum := by
  induction xs with
  | nil => rfl
  | cons x xs ih =>
    rw [List.map_cons, wsum_cons, List.map_cons, List.sum_cons, word_add, h x List.mem_cons_self,
      ih fun y hy => h y (List.mem_cons_of_mem x hy)]

end Sys2Proof.Machine
end

