-- ==== Sys2Proof/Laws/Buffers.lean ====
section
/-! SUPPORT. The laws of a buffer: a read after a write, and the canonical form kept by every write. -/

namespace Sys2Proof.Machine

variable {width : Nat}

theorem bufGet_bufSet_same (b : Buffer width) (i : Nat) (x : BitVec width) :
    bufGet (bufSet b i x) i = some x := by
  induction b with
  | nil => simp [bufSet, bufGet]
  | cons p rest ih =>
    obtain ⟨a, v⟩ := p
    simp only [bufSet]
    split
    · simp [bufGet]
    · split
      · simp [bufGet]
      · rename_i h1 h2
        simp only [bufGet, if_neg (Ne.symm h2), ih]

theorem bufGet_bufSet_other (b : Buffer width) {i j : Nat} (x : BitVec width) (h : j ≠ i) :
    bufGet (bufSet b i x) j = bufGet b j := by
  induction b with
  | nil => simp [bufSet, bufGet, Ne.symm h]
  | cons p rest ih =>
    obtain ⟨a, v⟩ := p
    simp only [bufSet]
    split
    · simp [bufGet, Ne.symm h]
    · split
      · rename_i h1 h2
        subst h2
        simp [bufGet, Ne.symm h]
      · simp only [bufGet, ih]

theorem bufGet_bufSet (b : Buffer width) (i j : Nat) (x : BitVec width) :
    bufGet (bufSet b i x) j = if j = i then some x else bufGet b j := by
  split
  · rename_i h
    rw [h, bufGet_bufSet_same]
  · rename_i h
    exact bufGet_bufSet_other b x h

theorem bufGet_bufStore (b : Buffer width) (i j : Nat) (xs : List (BitVec width)) :
    bufGet (bufStore b i xs) j = if i ≤ j ∧ j < i + xs.length then xs[j - i]? else bufGet b j := by
  induction xs generalizing b i with
  | nil => simp [bufStore, show ¬(i ≤ j ∧ j < i) by omega]
  | cons x xs ih =>
    rw [bufStore, ih, bufGet_bufSet]
    simp only [List.length_cons]
    by_cases hj : j = i
    · subst hj
      simp
    · by_cases hr : i + 1 ≤ j ∧ j < i + 1 + xs.length
      · rw [if_pos hr, if_pos (by omega)]
        obtain ⟨d, rfl⟩ : ∃ d, j = i + 1 + d := ⟨j - (i + 1), by omega⟩
        rw [show i + 1 + d - (i + 1) = d by omega, show i + 1 + d - i = d + 1 by omega,
          List.getElem?_cons_succ]
      · rw [if_neg hr, if_neg hj, if_neg (by omega)]

/-- What a vector written from index 0 leaves: its elements below its length, the old content above. -/
theorem bufGet_bufStore_zero (b : Buffer width) (j : Nat) (xs : List (BitVec width)) :
    bufGet (bufStore b 0 xs) j = if j < xs.length then xs[j]? else bufGet b j := by
  rw [bufGet_bufStore]
  simp

theorem fst_mem_bufSet (b : Buffer width) (i k : Nat) (x : BitVec width)
    (h : k ∈ (bufSet b i x).map Prod.fst) : k = i ∨ k ∈ b.map Prod.fst := by
  induction b with
  | nil => simpa [bufSet] using h
  | cons p rest ih =>
    obtain ⟨a, v⟩ := p
    simp only [bufSet] at h
    split at h
    · simpa using h
    · split at h
      · simp only [List.map_cons, List.mem_cons] at h ⊢
        exact h.elim .inl (fun h => .inr (.inr h))
      · simp only [List.map_cons, List.mem_cons] at h ⊢
        exact h.elim (fun h => .inr (.inl h)) (fun h => (ih h).imp_right .inr)

theorem bufSet_wf (b : Buffer width) (i : Nat) (x : BitVec width) (h : bufWf b) :
    bufWf (bufSet b i x) := by
  induction b with
  | nil => simp [bufSet, bufWf]
  | cons p rest ih =>
    obtain ⟨a, v⟩ := p
    obtain ⟨ha, hrest⟩ := List.pairwise_cons.mp h
    simp only [bufSet]
    split
    · rename_i hi
      refine List.pairwise_cons.mpr ⟨fun k hk => ?_, h⟩
      rcases List.mem_cons.mp hk with rfl | hk
      · exact hi
      · exact lt_trans hi (ha k hk)
    · split
      · rename_i h1 h2
        subst h2
        exact List.pairwise_cons.mpr ⟨ha, hrest⟩
      · rename_i h1 h2
        refine List.pairwise_cons.mpr ⟨fun k hk => ?_, ih hrest⟩
        rcases fst_mem_bufSet rest i k x hk with rfl | hk
        · exact lt_of_le_of_ne (Nat.le_of_not_lt h1) (Ne.symm h2)
        · exact ha k hk

theorem bufStore_wf (b : Buffer width) (i : Nat) (xs : List (BitVec width)) (h : bufWf b) :
    bufWf (bufStore b i xs) := by
  induction xs generalizing b i with
  | nil => exact h
  | cons x xs ih => exact ih _ _ (bufSet_wf b i x h)

theorem storeCt_wf (s : State) (ws : List Word) (h : s.mem.wf) : (storeCt s ws).mem.wf :=
  ⟨h.1, h.2.1, h.2.2.1, bufStore_wf _ _ _ h.2.2.2⟩

theorem storeRot_wf (s : State) (bs : List Byte) (h : s.mem.wf) : (storeRot s bs).mem.wf :=
  ⟨bufStore_wf _ _ _ h.1, h.2.1, h.2.2.1, h.2.2.2⟩

theorem reset_wf : State.reset.mem.wf := by
  decide

end Sys2Proof.Machine
end

