-- ==== Sys2Proof/Laws/Operands.lean ====
section
/-! SUPPORT. What an engine access and the loading of the lanes can do, said once. -/

namespace Sys2Proof.Machine

theorem memReadByte_ok_iff (s : State) (sp : ByteSpace) (i : Nat) (b : Byte) :
    memReadByte s sp i = .ok b ↔
      i < s.regs.capacity.toNat ∧ bufGet (byteBuffer s.mem sp) i = some b := by
  unfold memReadByte
  split
  · split <;> simp_all
  · simp_all

theorem memReadWord_ok_iff (s : State) (i : Nat) (w : Word) :
    memReadWord s i = .ok w ↔ i < s.regs.capacity.toNat ∧ bufGet s.mem.ct i = some w := by
  unfold memReadWord
  split
  · split <;> simp_all
  · simp_all

/-- An access below NMAX stops only on a never-written element. -/
theorem memReadByte_error (s : State) (sp : ByteSpace) (i : Nat) (e : Stop)
    (hi : i < s.regs.capacity.toNat) (h : memReadByte s sp i = .error e) :
    e = .refused (.neverWritten sp.space i) ∧ bufGet (byteBuffer s.mem sp) i = none := by
  unfold memReadByte at h
  rw [if_pos hi] at h
  split at h <;> simp_all

theorem memReadWord_error (s : State) (i : Nat) (e : Stop)
    (hi : i < s.regs.capacity.toNat) (h : memReadWord s i = .error e) :
    e = .refused (.neverWritten .ct i) ∧ bufGet s.mem.ct i = none := by
  unfold memReadWord at h
  rw [if_pos hi] at h
  split at h <;> simp_all

theorem loadEncLane_ok_iff (s : State) (i : Nat) (l : EncLane) :
    loadEncLane s i = .ok l ↔
      i < s.regs.capacity.toNat ∧ bufGet s.mem.rot i = some l.rot ∧ bufGet s.mem.iv i = some l.iv ∧
        bufGet s.mem.dk i = some l.dk := by
  have hr := memReadByte_ok_iff s .rot i
  have hv := memReadByte_ok_iff s .iv i
  have hk := memReadByte_ok_iff s .dk i
  simp only [byteBuffer] at hr hv hk
  unfold loadEncLane
  constructor
  · intro h
    split at h
    · cases h
    · rename_i r h1
      split at h
      · cases h
      · rename_i v h2
        split at h
        · cases h
        · rename_i k h3
          cases h
          exact ⟨((hr r).mp h1).1, ((hr r).mp h1).2, ((hv v).mp h2).2, ((hk k).mp h3).2⟩
  · rintro ⟨hi, h1, h2, h3⟩
    rw [(hr _).mpr ⟨hi, h1⟩]
    simp only [(hv _).mpr ⟨hi, h2⟩, (hk _).mpr ⟨hi, h3⟩]

theorem loadDecLane_ok_iff (s : State) (i : Nat) (l : DecLane) :
    loadDecLane s i = .ok l ↔
      i < s.regs.capacity.toNat ∧ bufGet s.mem.ct i = some l.ct ∧ bufGet s.mem.iv i = some l.iv ∧
        bufGet s.mem.dk i = some l.dk := by
  have hr := memReadWord_ok_iff s i
  have hv := memReadByte_ok_iff s .iv i
  have hk := memReadByte_ok_iff s .dk i
  simp only [byteBuffer] at hv hk
  unfold loadDecLane
  constructor
  · intro h
    split at h
    · cases h
    · rename_i r h1
      split at h
      · cases h
      · rename_i v h2
        split at h
        · cases h
        · rename_i k h3
          cases h
          exact ⟨((hr r).mp h1).1, ((hr r).mp h1).2, ((hv v).mp h2).2, ((hk k).mp h3).2⟩
  · rintro ⟨hi, h1, h2, h3⟩
    rw [(hr _).mpr ⟨hi, h1⟩]
    simp only [(hv _).mpr ⟨hi, h2⟩, (hk _).mpr ⟨hi, h3⟩]

/-- Loading a lane below NMAX stops only on a never-written element, which is one of that lane. -/
theorem loadEncLane_error (s : State) (i : Nat) (e : Stop) (hi : i < s.regs.capacity.toNat)
    (h : loadEncLane s i = .error e) :
    ∃ sp : ByteSpace, e = .refused (.neverWritten sp.space i) ∧
      bufGet (byteBuffer s.mem sp) i = none := by
  unfold loadEncLane at h
  split at h
  · rename_i h1
    cases h
    exact ⟨.rot, memReadByte_error s .rot i _ hi h1⟩
  · split at h
    · rename_i h1
      cases h
      exact ⟨.iv, memReadByte_error s .iv i _ hi h1⟩
    · split at h
      · rename_i h1
        cases h
        exact ⟨.dk, memReadByte_error s .dk i _ hi h1⟩
      · cases h

theorem loadDecLane_error (s : State) (i : Nat) (e : Stop) (hi : i < s.regs.capacity.toNat)
    (h : loadDecLane s i = .error e) :
    (e = .refused (.neverWritten .ct i) ∧ bufGet s.mem.ct i = none) ∨
      ∃ sp : ByteSpace, sp ≠ .rot ∧ e = .refused (.neverWritten sp.space i) ∧
        bufGet (byteBuffer s.mem sp) i = none := by
  unfold loadDecLane at h
  split at h
  · rename_i h1
    cases h
    exact .inl (memReadWord_error s i _ hi h1)
  · split at h
    · rename_i h1
      cases h
      exact .inr ⟨.iv, by decide, memReadByte_error s .iv i _ hi h1⟩
    · split at h
      · rename_i h1
        cases h
        exact .inr ⟨.dk, by decide, memReadByte_error s .dk i _ hi h1⟩
      · cases h

variable {α : Type}

theorem collect_succ (load : Nat → Except Stop α) (i k : Nat) {x : α} (h : load i = .ok x) :
    collect load i (k + 1) =
      match collect load (i + 1) k with
      | .error e => .error e
      | .ok xs => .ok (x :: xs) := by
  simp only [collect, h] <;> rfl

/-- `collect` succeeds exactly when every access does, and then lists what they give. -/
theorem collect_ok_iff (load : Nat → Except Stop α) (i k : Nat) (xs : List α) :
    collect load i k = .ok xs ↔
      xs.length = k ∧ ∀ (j : Nat) (h : j < xs.length), load (i + j) = .ok xs[j] := by
  induction k generalizing i xs with
  | zero =>
    rw [collect]
    constructor
    · rintro ⟨⟩
      simp
    · rintro ⟨h, -⟩
      rw [List.length_eq_zero_iff.mp h]
  | succ k ih =>
    constructor
    · intro h
      rw [collect] at h
      split at h
      · cases h
      · rename_i x hx
        split at h
        · cases h
        · rename_i ys hys
          cases h
          obtain ⟨hl, hj⟩ := (ih _ _).mp hys
          refine ⟨by simp [hl], fun j hj' => ?_⟩
          cases j with
          | zero => simpa using hx
          | succ j =>
            have := hj j (by simpa using hj')
            rw [List.getElem_cons_succ, ← this]
            congr 1
            omega
    · rintro ⟨hl, hj⟩
      cases xs with
      | nil => simp at hl
      | cons x ys =>
        have h0 := hj 0 (by simp)
        simp only [Nat.add_zero, List.getElem_cons_zero] at h0
        have hys : collect load (i + 1) k = .ok ys := by
          refine (ih _ _).mpr ⟨by simpa using hl, fun j h => ?_⟩
          have := hj (j + 1) (by simpa using h)
          rw [List.getElem_cons_succ] at this
          rw [← this]
          congr 1
          omega
        rw [collect_succ load i k h0, hys]

/-- Where `collect` stops, one of the accesses does. -/
theorem collect_error (load : Nat → Except Stop α) (i k : Nat) (e : Stop)
    (h : collect load i k = .error e) : ∃ j, j < k ∧ load (i + j) = .error e := by
  induction k generalizing i with
  | zero => cases h
  | succ k ih =>
    rw [collect] at h
    split at h
    · rename_i e' he
      cases h
      exact ⟨0, Nat.succ_pos k, he⟩
    · split at h
      · rename_i e' he
        cases h
        obtain ⟨j, hj, hl⟩ := ih _ he
        exact ⟨j + 1, by omega, by rw [← hl]; congr 1; omega⟩
      · cases h

/-- The lanes of `ENC`, characterised by the buffers' elements. -/
theorem loadEncLanes_ok_iff (s : State) (ls : List EncLane) :
    loadEncLanes s = .ok ls ↔
      ls.length = (lengthN s).toNat ∧ ∀ (j : Nat) (h : j < ls.length), j < s.regs.capacity.toNat ∧
        bufGet s.mem.rot j = some ls[j].rot ∧ bufGet s.mem.iv j = some ls[j].iv ∧
          bufGet s.mem.dk j = some ls[j].dk := by
  simp only [loadEncLanes, collect_ok_iff, Nat.zero_add, loadEncLane_ok_iff]

/-- The lanes of `DEC`, characterised by the buffers' elements. -/
theorem loadDecLanes_ok_iff (s : State) (ls : List DecLane) :
    loadDecLanes s = .ok ls ↔
      ls.length = (lengthN s).toNat ∧ ∀ (j : Nat) (h : j < ls.length), j < s.regs.capacity.toNat ∧
        bufGet s.mem.ct j = some ls[j].ct ∧ bufGet s.mem.iv j = some ls[j].iv ∧
          bufGet s.mem.dk j = some ls[j].dk := by
  simp only [loadDecLanes, collect_ok_iff, Nat.zero_add, loadDecLane_ok_iff]

theorem forward_length (ls : List EncLane) : (forward ls).length = ls.length := by
  simp [forward]

theorem inverse_length (ls : List DecLane) (bs : List Byte) (h : inverse ls = some bs) :
    bs.length = ls.length := by
  simp only [inverse] at h
  split at h
  · cases h
  · cases h
    simp

end Sys2Proof.Machine
end

