-- ==== Sys2Proof/Laws/State.lean ====
section
/-! SUPPORT. One lemma per field per update, true by `rfl`, so that no later proof unfolds a record update. -/

namespace Sys2Proof.Machine

@[simp] theorem complete_regs (s : State) : (complete s).regs = { s.regs with status := statusDone } := rfl
@[simp] theorem complete_mem (s : State) : (complete s).mem = s.mem := rfl
@[simp] theorem complete_eng (s : State) : (complete s).eng = engineAfterCommand s.draws := rfl
@[simp] theorem complete_host (s : State) : (complete s).host = s.host := rfl
@[simp] theorem complete_draws (s : State) : (complete s).draws = s.draws + 4 := rfl

@[simp] theorem raise_mem (e : EngineError) (s : State) : (raise e s).mem = s.mem := rfl
@[simp] theorem raise_eng (e : EngineError) (s : State) : (raise e s).eng = engineAfterCommand s.draws := rfl
@[simp] theorem raise_host (e : EngineError) (s : State) : (raise e s).host = s.host := rfl
@[simp] theorem raise_draws (e : EngineError) (s : State) : (raise e s).draws = s.draws + 4 := rfl

@[simp] theorem startCommand_mem (w : CommandWord) (s : State) : (startCommand w s).mem = s.mem := rfl
@[simp] theorem startCommand_eng (w : CommandWord) (s : State) : (startCommand w s).eng = { s.eng with phase := .decode } := rfl
@[simp] theorem startCommand_host (w : CommandWord) (s : State) : (startCommand w s).host = s.host := rfl
@[simp] theorem startCommand_draws (w : CommandWord) (s : State) : (startCommand w s).draws = s.draws := rfl

@[simp] theorem resetBlock_regs (s : State) : (resetBlock s).regs = Regs.reset s.regs.capacity := rfl
@[simp] theorem resetBlock_mem (s : State) : (resetBlock s).mem = Memory.empty := rfl
@[simp] theorem resetBlock_eng (s : State) : (resetBlock s).eng = Engine.reset := rfl
@[simp] theorem resetBlock_host (s : State) : (resetBlock s).host = s.host := rfl
@[simp] theorem resetBlock_draws (s : State) : (resetBlock s).draws = s.draws := rfl

@[simp] theorem storeCt_regs (s : State) (ws : List Word) : (storeCt s ws).regs = s.regs := rfl
@[simp] theorem storeCt_mem (s : State) (ws : List Word) : (storeCt s ws).mem = { s.mem with ct := bufStore s.mem.ct 0 ws } := rfl
@[simp] theorem storeCt_eng (s : State) (ws : List Word) : (storeCt s ws).eng = s.eng := rfl
@[simp] theorem storeCt_host (s : State) (ws : List Word) : (storeCt s ws).host = s.host := rfl
@[simp] theorem storeCt_draws (s : State) (ws : List Word) : (storeCt s ws).draws = s.draws := rfl

@[simp] theorem storeRot_regs (s : State) (bs : List Byte) : (storeRot s bs).regs = s.regs := rfl
@[simp] theorem storeRot_mem (s : State) (bs : List Byte) : (storeRot s bs).mem = { s.mem with rot := bufStore s.mem.rot 0 bs } := rfl
@[simp] theorem storeRot_eng (s : State) (bs : List Byte) : (storeRot s bs).eng = s.eng := rfl
@[simp] theorem storeRot_host (s : State) (bs : List Byte) : (storeRot s bs).host = s.host := rfl
@[simp] theorem storeRot_draws (s : State) (bs : List Byte) : (storeRot s bs).draws = s.draws := rfl

@[simp] theorem dropTurn_regs (s : State) : (dropTurn s).regs = s.regs := rfl
@[simp] theorem dropTurn_mem (s : State) : (dropTurn s).mem = s.mem := rfl
@[simp] theorem dropTurn_eng (s : State) : (dropTurn s).eng = s.eng := rfl
@[simp] theorem dropTurn_host (s : State) : (dropTurn s).host = { s.host with schedule := s.host.schedule.tail } := rfl
@[simp] theorem dropTurn_draws (s : State) : (dropTurn s).draws = s.draws := rfl

@[simp] theorem toPhase_regs (p : Phase) (s : State) : (toPhase p s).regs = s.regs := rfl
@[simp] theorem toPhase_mem (p : Phase) (s : State) : (toPhase p s).mem = s.mem := rfl
@[simp] theorem toPhase_eng (p : Phase) (s : State) : (toPhase p s).eng = { s.eng with phase := p } := rfl
@[simp] theorem toPhase_host (p : Phase) (s : State) : (toPhase p s).host = s.host := rfl
@[simp] theorem toPhase_draws (p : Phase) (s : State) : (toPhase p s).draws = s.draws := rfl

@[simp] theorem beginPass_regs (p : Phase) (s : State) : (beginPass p s).regs = s.regs := rfl
@[simp] theorem beginPass_mem (p : Phase) (s : State) : (beginPass p s).mem = s.mem := rfl
@[simp] theorem beginPass_eng (p : Phase) (s : State) : (beginPass p s).eng = { s.eng with phase := p, index := 0 } := rfl
@[simp] theorem beginPass_host (p : Phase) (s : State) : (beginPass p s).host = s.host := rfl
@[simp] theorem beginPass_draws (p : Phase) (s : State) : (beginPass p s).draws = s.draws := rfl

@[simp] theorem nextIndex_regs (s : State) : (nextIndex s).regs = s.regs := rfl
@[simp] theorem nextIndex_mem (s : State) : (nextIndex s).mem = s.mem := rfl
@[simp] theorem nextIndex_eng (s : State) : (nextIndex s).eng = { s.eng with index := s.eng.index + 1 } := rfl
@[simp] theorem nextIndex_host (s : State) : (nextIndex s).host = s.host := rfl
@[simp] theorem nextIndex_draws (s : State) : (nextIndex s).draws = s.draws := rfl

@[simp] theorem addEncLane_regs (l : EncLane) (s : State) : (addEncLane l s).regs = s.regs := rfl
@[simp] theorem addEncLane_mem (l : EncLane) (s : State) : (addEncLane l s).mem = s.mem := rfl
@[simp] theorem addEncLane_host (l : EncLane) (s : State) : (addEncLane l s).host = s.host := rfl
@[simp] theorem addEncLane_draws (l : EncLane) (s : State) : (addEncLane l s).draws = s.draws := rfl

@[simp] theorem addDecLane_regs (l : DecLane) (s : State) : (addDecLane l s).regs = s.regs := rfl
@[simp] theorem addDecLane_mem (l : DecLane) (s : State) : (addDecLane l s).mem = s.mem := rfl
@[simp] theorem addDecLane_host (l : DecLane) (s : State) : (addDecLane l s).host = s.host := rfl
@[simp] theorem addDecLane_draws (l : DecLane) (s : State) : (addDecLane l s).draws = s.draws := rfl

@[simp] theorem raise_regs_cmd (e : EngineError) (s : State) : (raise e s).regs.cmd = s.regs.cmd := rfl
@[simp] theorem raise_regs_status (e : EngineError) (s : State) : (raise e s).regs.status = statusError := rfl
@[simp] theorem raise_regs_dataLen (e : EngineError) (s : State) : (raise e s).regs.dataLen = s.regs.dataLen := rfl
@[simp] theorem raise_regs_ivLen (e : EngineError) (s : State) : (raise e s).regs.ivLen = s.regs.ivLen := rfl
@[simp] theorem raise_regs_errCode (e : EngineError) (s : State) : (raise e s).regs.errCode = errorCode e := rfl
@[simp] theorem raise_regs_errBuf (e : EngineError) (s : State) : (raise e s).regs.errBuf = errorBuf e := rfl
@[simp] theorem raise_regs_errIvLen (e : EngineError) (s : State) : (raise e s).regs.errIvLen = errorIvLen e := rfl
@[simp] theorem raise_regs_errDataLen (e : EngineError) (s : State) : (raise e s).regs.errDataLen = errorDataLen e := rfl
@[simp] theorem raise_regs_capacity (e : EngineError) (s : State) : (raise e s).regs.capacity = s.regs.capacity := rfl

@[simp] theorem startCommand_regs_cmd (w : CommandWord) (s : State) : (startCommand w s).regs.cmd = w := rfl
@[simp] theorem startCommand_regs_status (w : CommandWord) (s : State) : (startCommand w s).regs.status = statusBusy := rfl
@[simp] theorem startCommand_regs_dataLen (w : CommandWord) (s : State) : (startCommand w s).regs.dataLen = s.regs.dataLen := rfl
@[simp] theorem startCommand_regs_ivLen (w : CommandWord) (s : State) : (startCommand w s).regs.ivLen = s.regs.ivLen := rfl
@[simp] theorem startCommand_regs_errCode (w : CommandWord) (s : State) : (startCommand w s).regs.errCode = 0#3 := rfl
@[simp] theorem startCommand_regs_errBuf (w : CommandWord) (s : State) : (startCommand w s).regs.errBuf = 0#2 := rfl
@[simp] theorem startCommand_regs_errIvLen (w : CommandWord) (s : State) : (startCommand w s).regs.errIvLen = 0#32 := rfl
@[simp] theorem startCommand_regs_errDataLen (w : CommandWord) (s : State) : (startCommand w s).regs.errDataLen = 0#32 := rfl
@[simp] theorem startCommand_regs_capacity (w : CommandWord) (s : State) : (startCommand w s).regs.capacity = s.regs.capacity := rfl

@[simp] theorem engineAfterCommand_phase (d : Nat) : (engineAfterCommand d).phase = .idle := rfl

@[simp] theorem busy_toPhase (p : Phase) (s : State) : busy (toPhase p s) = busy s := rfl
@[simp] theorem busy_beginPass (p : Phase) (s : State) : busy (beginPass p s) = busy s := rfl
@[simp] theorem busy_nextIndex (s : State) : busy (nextIndex s) = busy s := rfl
@[simp] theorem busy_dropTurn (s : State) : busy (dropTurn s) = busy s := rfl
@[simp] theorem busy_complete (s : State) : busy (complete s) = false := by simp [busy, complete, statusDone]
@[simp] theorem busy_raise (e : EngineError) (s : State) : busy (raise e s) = false := by simp [busy, raise, statusError]
@[simp] theorem busy_startCommand (w : CommandWord) (s : State) : busy (startCommand w s) = true := by simp [busy, startCommand, statusBusy]
@[simp] theorem busy_resetBlock (s : State) : busy (resetBlock s) = false := by simp [busy, resetBlock, Regs.reset]
@[simp] theorem busy_storeCt (s : State) (ws : List Word) : busy (storeCt s ws) = busy s := rfl
@[simp] theorem busy_storeRot (s : State) (bs : List Byte) : busy (storeRot s bs) = busy s := rfl

end Sys2Proof.Machine
end

