-- ==== Sys2Proof/Laws/Exec.lean ====
section
/-! SUPPORT. What each command can do, said once: if it answers a next state, one of these cases holds. A proof
about commands cites these lemmas and unfolds no meaning. -/

namespace Sys2Proof.Machine

theorem execVenc_cases {s t : State} (h : execVenc s = .next t) :
    (lengthN s = 0#32 ∧ t = raise (.dataLength .data) s) ∨ (lengthN s ≠ 0#32 ∧ t = complete s) := by
  unfold execVenc gateEnc at h
  by_cases hn : lengthN s = 0#32
  · rw [if_pos hn] at h
    cases h
    exact .inl ⟨hn, rfl⟩
  · rw [if_neg hn] at h
    cases h
    exact .inr ⟨hn, rfl⟩

theorem execVdec_cases {s t : State} (h : execVdec s = .next t) :
    (lengthN s = 0#32 ∧ t = raise (.dataLength .ciphertext) s) ∨
      (lengthN s ≠ 0#32 ∧ lengthN s ≠ lengthM s ∧
        t = raise (.ivLengthMismatch (lengthM s) (lengthN s)) s) ∨
      (lengthN s ≠ 0#32 ∧ lengthN s = lengthM s ∧ t = complete s) := by
  unfold execVdec gateDec at h
  by_cases hn : lengthN s = 0#32
  · rw [if_pos hn] at h
    cases h
    exact .inl ⟨hn, rfl⟩
  · rw [if_neg hn] at h
    by_cases hm : lengthN s = lengthM s
    · rw [if_neg (not_not_intro hm)] at h
      cases h
      exact .inr (.inr ⟨hn, hm, rfl⟩)
    · rw [if_pos hm] at h
      cases h
      exact .inr (.inl ⟨hn, hm, rfl⟩)

/-- `ENC` past its checks is its transform. -/
theorem execEnc_run {s : State} (hn : lengthN s ≠ 0#32)
    (hc : (lengthN s).toNat ≤ s.regs.capacity.toNat) :
    execEnc s =
      match loadEncLanes s with
      | .error stop => stop.outcome
      | .ok ls => .next (complete (storeCt s (forward ls))) := by
  unfold execEnc gateEnc capacityCheck
  rw [if_neg hn, if_neg (Nat.not_lt.mpr hc)] <;> rfl

/-- `DEC` past its checks is its transform. -/
theorem execDec_run {s : State} (hn : lengthN s ≠ 0#32) (hm : lengthN s = lengthM s)
    (hc : (lengthN s).toNat ≤ s.regs.capacity.toNat) :
    execDec s =
      match loadDecLanes s with
      | .error stop => stop.outcome
      | .ok ls =>
        match inverse ls with
        | none => .next (raise .zeroDivisor s)
        | some bs => .next (complete (storeRot s bs)) := by
  unfold execDec gateDec capacityCheck
  rw [if_neg hn, if_neg (not_not_intro hm), if_neg (Nat.not_lt.mpr hc)] <;> rfl

theorem execEnc_cases {s t : State} (h : execEnc s = .next t) :
    (lengthN s = 0#32 ∧ t = raise (.dataLength .data) s) ∨
      (lengthN s ≠ 0#32 ∧ s.regs.capacity.toNat < (lengthN s).toNat ∧ t = raise .capacity s) ∨
      (lengthN s ≠ 0#32 ∧ (lengthN s).toNat ≤ s.regs.capacity.toNat ∧
        ∃ ls, loadEncLanes s = .ok ls ∧ t = complete (storeCt s (forward ls))) := by
  by_cases hn : lengthN s = 0#32
  · unfold execEnc gateEnc at h
    rw [if_pos hn] at h
    cases h
    exact .inl ⟨hn, rfl⟩
  · by_cases hc : s.regs.capacity.toNat < (lengthN s).toNat
    · unfold execEnc gateEnc capacityCheck at h
      rw [if_neg hn, if_pos hc] at h
      cases h
      exact .inr (.inl ⟨hn, hc, rfl⟩)
    · rw [execEnc_run hn (Nat.le_of_not_lt hc)] at h
      split at h
      · rename_i stop _
        cases stop <;> cases h
      · rename_i ls hls
        cases h
        exact .inr (.inr ⟨hn, Nat.le_of_not_lt hc, ls, hls, rfl⟩)

theorem execDec_cases {s t : State} (h : execDec s = .next t) :
    (lengthN s = 0#32 ∧ t = raise (.dataLength .ciphertext) s) ∨
      (lengthN s ≠ 0#32 ∧ lengthN s ≠ lengthM s ∧
        t = raise (.ivLengthMismatch (lengthM s) (lengthN s)) s) ∨
      (lengthN s ≠ 0#32 ∧ lengthN s = lengthM s ∧ s.regs.capacity.toNat < (lengthN s).toNat ∧
        t = raise .capacity s) ∨
      (lengthN s ≠ 0#32 ∧ lengthN s = lengthM s ∧ (lengthN s).toNat ≤ s.regs.capacity.toNat ∧
        ∃ ls, loadDecLanes s = .ok ls ∧
          ((inverse ls = none ∧ t = raise .zeroDivisor s) ∨
            ∃ bs, inverse ls = some bs ∧ t = complete (storeRot s bs))) := by
  by_cases hn : lengthN s = 0#32
  · unfold execDec gateDec at h
    rw [if_pos hn] at h
    cases h
    exact .inl ⟨hn, rfl⟩
  · by_cases hm : lengthN s = lengthM s
    · by_cases hc : s.regs.capacity.toNat < (lengthN s).toNat
      · unfold execDec gateDec capacityCheck at h
        rw [if_neg hn, if_neg (not_not_intro hm), if_pos hc] at h
        cases h
        exact .inr (.inr (.inl ⟨hn, hm, hc, rfl⟩))
      · rw [execDec_run hn hm (Nat.le_of_not_lt hc)] at h
        split at h
        · rename_i stop _
          cases stop <;> cases h
        · rename_i ls hls
          refine .inr (.inr (.inr ⟨hn, hm, Nat.le_of_not_lt hc, ls, hls, ?_⟩))
          split at h
          · rename_i hz
            cases h
            exact .inl ⟨hz, rfl⟩
          · rename_i bs hbs
            cases h
            exact .inr ⟨bs, hbs, rfl⟩
    · unfold execDec gateDec at h
      rw [if_neg hn, if_pos hm] at h
      cases h
      exact .inr (.inl ⟨hn, hm, rfl⟩)

/-- The three ways any command ends: an engine error and nothing written, success and nothing written, or
success and its output vector written. -/
theorem exec_cases {i : Instr} {s t : State} (h : exec i s = .next t) :
    (∃ e, t = raise e s) ∨ t = complete s ∨
      (i = .enc ∧ ∃ ls, loadEncLanes s = .ok ls ∧ t = complete (storeCt s (forward ls))) ∨
      (i = .dec ∧ ∃ ls bs, loadDecLanes s = .ok ls ∧ inverse ls = some bs ∧
        t = complete (storeRot s bs)) := by
  cases i with
  | venc =>
    obtain ⟨-, rfl⟩ | ⟨-, rfl⟩ := execVenc_cases h
    · exact .inl ⟨_, rfl⟩
    · exact .inr (.inl rfl)
  | vdec =>
    obtain ⟨-, rfl⟩ | ⟨-, -, rfl⟩ | ⟨-, -, rfl⟩ := execVdec_cases h
    · exact .inl ⟨_, rfl⟩
    · exact .inl ⟨_, rfl⟩
    · exact .inr (.inl rfl)
  | enc =>
    obtain ⟨-, rfl⟩ | ⟨-, -, rfl⟩ | ⟨-, -, ls, hls, rfl⟩ := execEnc_cases h
    · exact .inl ⟨_, rfl⟩
    · exact .inl ⟨_, rfl⟩
    · exact .inr (.inr (.inl ⟨rfl, ls, hls, rfl⟩))
  | dec =>
    obtain ⟨-, rfl⟩ | ⟨-, -, rfl⟩ | ⟨-, -, -, rfl⟩ | ⟨-, -, -, ls, hls, ⟨-, rfl⟩ | ⟨bs, hbs, rfl⟩⟩ :=
      execDec_cases h
    · exact .inl ⟨_, rfl⟩
    · exact .inl ⟨_, rfl⟩
    · exact .inl ⟨_, rfl⟩
    · exact .inl ⟨_, rfl⟩
    · exact .inr (.inr (.inr ⟨rfl, ls, bs, hls, hbs, rfl⟩))

end Sys2Proof.Machine
end

