-- ==== Sys2Proof/Laws/PerInstr.lean ====
section
/-! SUPPORT. Statements for every command, one lemma per constructor. -/

namespace Sys2Proof.Laws

/-- A command's word: its fields pass both checks, its opcode's two low bits say the direction and whether the
transform runs and the others are 0b000100 (30_encoding.md R81), and the decoder gives the command
back. -/
def OpcodeMap.Statement (i : Instr) : Prop :=
  (Command.ofWord (encode i)).wellFormed = true ∧
    i.opcode.extractLsb' 2 6 = 0b000100#6 ∧ i.opcode.getLsbD 0 = i.decryptPath ∧
    i.opcode.getLsbD 1 = i.runsTransform ∧ decode (encode i) = .ok i

theorem OpcodeMap.venc : OpcodeMap.Statement .venc := by
  refine ⟨?_, ?_, ?_, ?_, ?_⟩ <;> decide

theorem OpcodeMap.vdec : OpcodeMap.Statement .vdec := by
  refine ⟨?_, ?_, ?_, ?_, ?_⟩ <;> decide

theorem OpcodeMap.enc : OpcodeMap.Statement .enc := by
  refine ⟨?_, ?_, ?_, ?_, ?_⟩ <;> decide

theorem OpcodeMap.dec : OpcodeMap.Statement .dec := by
  refine ⟨?_, ?_, ?_, ?_, ?_⟩ <;> decide

end Sys2Proof.Laws
end

