-- ==== Sys2Proof/Laws/Port.lean ====
section
/-! SUPPORT. What a host transaction and a step can do, said once. -/

namespace Sys2Proof.Machine

theorem spaceOfNumber_number (sp : Space) : spaceOfNumber sp.number = some sp := by
  cases sp <;> rfl

theorem regAt_index (r : RegName) : regAt r.index.toNat = some r := by
  cases r <;> rfl

/-- A refused access changes nothing and is answered `ERR`. -/
theorem perform_refused {s : State} {t : Transaction} {c : PortRefusal}
    (h : portRefusal s t = some c) : perform s t = (s, .err) := by
  unfold perform
  rw [h]

/-- An accepted read changes nothing. -/
theorem perform_read {s : State} {n : Nat} {i : BitVec 32} {sp : Space}
    (h : portRefusal s (.hostRead n i) = none) (hs : spaceOfNumber n = some sp) :
    perform s (.hostRead n i) = (s, .okData (readData s sp i.toNat)) := by
  rw [perform, h]
  simp only [hs]

theorem perform_write {s : State} {n : Nat} {i : BitVec 32} {d : Word} {sp : Space}
    (h : portRefusal s (.hostWrite n i d) = none) (hs : spaceOfNumber n = some sp) :
    perform s (.hostWrite n i d) = (writeData s sp i.toNat d, .ok) := by
  rw [perform, h]
  simp only [hs]

/-- What an accepted transaction met: the space and the index exist, a write is to something writable, and a
`BUSY` block was asked for `STATUS` only. -/
theorem portRefusal_none_iff (s : State) (t : Transaction) :
    portRefusal s t = none ↔
      ∃ sp, spaceOfNumber t.space = some sp ∧ indexExists s sp t.index.toNat = true ∧
        (t.isWrite = true → mayWrite sp t.index.toNat = true) ∧ (busy s = true → t = statusRead) := by
  unfold portRefusal
  split
  · rename_i h
    simp [h]
  · rename_i sp h
    simp only [h, Option.some.injEq, exists_eq_left']
    cases indexExists s sp t.index.toNat <;> cases t.isWrite <;>
      cases mayWrite sp t.index.toNat <;> cases busy s <;> simp

/-- What one transaction can do to the state. -/
theorem perform_cases (s : State) (t : Transaction) :
    (perform s t).1 = s ∨
      ∃ n i d sp, t = .hostWrite n i d ∧ portRefusal s t = none ∧ spaceOfNumber n = some sp ∧
        (perform s t).1 = writeData s sp i.toNat d := by
  cases hc : portRefusal s t with
  | some c => exact .inl (by rw [perform_refused hc])
  | none =>
    obtain ⟨sp, hs, -⟩ := (portRefusal_none_iff s t).mp hc
    rcases t with ⟨n, i⟩ | ⟨n, i, d⟩
    · exact .inl (by rw [perform_read hc hs])
    · exact .inr ⟨n, i, d, sp, rfl, rfl, hs, by rw [perform_write hc hs]⟩

/-- While `BUSY`, no transaction changes the state. -/
theorem perform_busy {s : State} (h : busy s = true) (t : Transaction) : (perform s t).1 = s := by
  rcases perform_cases s t with h' | ⟨n, i, d, sp, rfl, hc, -⟩
  · exact h'
  · obtain ⟨-, -, -, -, hb⟩ := (portRefusal_none_iff s _).mp hc
    cases hb h

@[simp] theorem issue_regs (s : State) (t : Transaction) (e : Option Response) (r : List HostOp) :
    (issue s t e r).regs = (perform s t).1.regs := rfl
@[simp] theorem issue_mem (s : State) (t : Transaction) (e : Option Response) (r : List HostOp) :
    (issue s t e r).mem = (perform s t).1.mem := rfl
@[simp] theorem issue_eng (s : State) (t : Transaction) (e : Option Response) (r : List HostOp) :
    (issue s t e r).eng = (perform s t).1.eng := rfl
@[simp] theorem issue_draws (s : State) (t : Transaction) (e : Option Response) (r : List HostOp) :
    (issue s t e r).draws = (perform s t).1.draws := rfl

theorem hostTurn_nil {s : State} (h : s.host.script = []) : hostTurn s = s := by
  rw [hostTurn, h]

theorem hostTurn_tx {s : State} {t : Transaction} {e : Option Response} {rest : List HostOp}
    (h : s.host.script = .tx t e :: rest) : hostTurn s = issue s t e rest := by
  rw [hostTurn, h]

theorem hostTurn_wait {s : State} {rest : List HostOp} (h : s.host.script = .wait :: rest) :
    hostTurn s =
      issue s statusRead none (if endsWait (perform s statusRead).2 then rest else .wait :: rest) := by
  rw [hostTurn, h]

/-- What one move of the host can do: nothing, the transaction at the head of the script, or one poll. -/
theorem hostTurn_cases (s : State) :
    (s.host.script = [] ∧ hostTurn s = s) ∨
      (∃ t e rest, s.host.script = .tx t e :: rest ∧ hostTurn s = issue s t e rest) ∨
      ∃ rest r, s.host.script = .wait :: rest ∧ hostTurn s = issue s statusRead none r := by
  cases h : s.host.script with
  | nil => exact .inl ⟨rfl, hostTurn_nil h⟩
  | cons op rest =>
    cases op with
    | tx t e => exact .inr (.inl ⟨t, e, rest, rfl, hostTurn_tx h⟩)
    | wait => exact .inr (.inr ⟨rest, _, rfl, hostTurn_wait h⟩)

/-- What one step can do. -/
theorem step_cases (s : State) :
    (nextTurn s = .engine ∧ busy s = true ∧ step s = runLatched (dropTurn s)) ∨
      (nextTurn s = .engine ∧ busy s = false ∧ step s = .next (dropTurn s)) ∨
      (nextTurn s = .host ∧ step s = .next (hostTurn (dropTurn s))) ∨
      (nextTurn s = .reset ∧ step s = .next (resetBlock (dropTurn s))) := by
  unfold step
  cases ht : nextTurn s with
  | engine =>
    cases hb : busy s with
    | true => exact .inl ⟨rfl, rfl, if_pos hb⟩
    | false => exact .inr (.inl ⟨rfl, rfl, if_neg (by simp [hb])⟩)
  | host => simp
  | reset => simp

end Sys2Proof.Machine
end

