-- ==== Sys2Proof/Tests/Slice0.lean ====
section
/-! SUPPORT. The model's own tests. Expected values are the spec's: the opcode map (30_encoding.md R81) written
out bit by bit, and the vectors of 95_test_vectors.md, whose names (V-G1, V-E1, …) the docstrings give. The
second half holds, for every statement with hypotheses, a concrete case that meets them all. -/

namespace Sys2Proof.Tests

open Sys2Proof Sys2Proof.Machine

/-! ### Helpers -/

/-- A block of `cap` elements with the lengths n and m and the given buffers. -/
def block (cap n m : Len) (rot iv dk : List Byte) (ct : List Word) : State :=
  { State.resetWith cap with
    regs := { Regs.reset cap with dataLen := n, ivLen := m }
    mem := { rot := bufStore [] 0 rot, iv := bufStore [] 0 iv, dk := bufStore [] 0 dk,
             ct := bufStore [] 0 ct } }

/-- A block with empty buffers. -/
def bare (cap n m : Len) : State := block cap n m [] [] [] []

/-- A block with a command started and the engine to move. -/
def started (i : Instr) (s : State) : State := startCommand (encode i) s

/-- The same with a schedule. -/
def scheduled (ts : List Turn) (s : State) : State := { s with host := { s.host with schedule := ts } }

/-- The next state, if the outcome is one. -/
def nextOf : Host.Outcome State Fault Refusal → Option State
  | .next t => some t
  | .fault _ => none
  | .refused _ => none

/-- What became of the status and the error record. -/
def record (o : Host.Outcome State Fault Refusal) : Option (BitVec 3 × BitVec 3 × BitVec 2 × Len × Len) :=
  (nextOf o).map fun t => (t.regs.status, t.regs.errCode, t.regs.errBuf, t.regs.errIvLen, t.regs.errDataLen)

/-- What became of the ciphertext buffer. -/
def ctOf (o : Host.Outcome State Fault Refusal) : Option (Buffer 64) := (nextOf o).map fun t => t.mem.ct

/-- What became of the rotated-plaintext buffer. -/
def rotOf (o : Host.Outcome State Fault Refusal) : Option (Buffer 8) := (nextOf o).map fun t => t.mem.rot

/-- The block of V-E3 and V-D2. -/
def e3 : State :=
  block 4#32 3#32 3#32 [0x41#8, 0xC8#8, 0x00#8] [0xFF#8, 0x7F#8, 0x80#8] [0x02#8, 0xFD#8, 0x80#8] []

/-- The ciphertext of V-E3 with other bytes in `ROT`. -/
def d2 : State :=
  block 4#32 3#32 3#32 [0xEE#8, 0xEE#8, 0xEE#8] [0xFF#8, 0x7F#8, 0x80#8] [0x02#8, 0xFD#8, 0x80#8]
    [0x00000000001138A9#64, 0xFFFFFFFFFFF08D1E#64, 0xFFFFFFFFFFC2A900#64]

/-- One lane of `DEC`. -/
def dec1 (ct : Word) (iv dk : Byte) : State := block 4#32 1#32 1#32 [] [iv] [dk] [ct]

/-! ### Well-formedness and decoding -/

theorem test_wf_reserved_bit_refused : ({ rsv := 0x000001#24, op := 0x12#8 } : Command).wellFormed = false := by
  decide

theorem test_wf_unknown_opcode_refused : ({ rsv := 0#24, op := 0x14#8 } : Command).wellFormed = false := by
  decide

theorem test_wf_legal_command : ({ rsv := 0#24, op := 0x12#8 } : Command).wellFormed = true := by decide

theorem test_decode_venc : decode 0b00000000000000000000000000010000#32 = .ok .venc := by rfl

theorem test_decode_vdec : decode 0b00000000000000000000000000010001#32 = .ok .vdec := by rfl

theorem test_decode_enc : decode 0b00000000000000000000000000010010#32 = .ok .enc := by rfl

theorem test_decode_dec : decode 0b00000000000000000000000000010011#32 = .ok .dec := by rfl

/-- V-G13. -/
theorem test_decode_zero_word : decode 0x00000000#32 = .error .unknownOpcode := by rfl

/-- V-G14: an opcode of the map under a reserved bit. -/
theorem test_decode_reserved_bit : decode 0x00000112#32 = .error .reservedNotZero := by rfl

/-- V-G15, and the neighbour below the map. -/
theorem test_decode_neighbours :
    decode 0x00000014#32 = .error .unknownOpcode ∧ decode 0x0000000F#32 = .error .unknownOpcode := by
  exact ⟨rfl, rfl⟩

/-- The top reserved bit is tested too (R80). -/
theorem test_decode_top_bit : decode 0x80000010#32 = .error .reservedNotZero := by rfl

theorem test_table_words :
    decodeTableWord 32 0x10 = some .venc ∧ decodeTableWord 32 0x11 = some .vdec ∧
      decodeTableWord 32 0x12 = some .enc ∧ decodeTableWord 32 0x13 = some .dec := by
  exact ⟨rfl, rfl, rfl, rfl⟩

theorem test_table_word_illegal : decodeTableWord 32 0x112 = none := by rfl

/-- The first step after reset with `ENC` placed: `DATA_LEN` is 0, so it ends with `DATA_LENGTH` (P3). -/
theorem test_first_step_enc :
    record (step (State.reset.withFetchWord 32 0x12)) = some (0b100#3, 1#3, 1#2, 0#32, 0#32) := by rfl

/-- The first step after reset with the word 0 placed: `BAD_CMD` (V-G13). -/
theorem test_first_step_bad_word :
    record (step (State.reset.withFetchWord 32 0)) = some (0b100#3, 4#3, 0#2, 0#32, 0#32) := by rfl

/-! ### The four commands -/

/-- V-G1. -/
theorem test_venc_empty : record (exec .venc (bare 4#32 0#32 5#32)) = some (0b100#3, 1#3, 1#2, 0#32, 0#32) := by
  rfl

/-- V-G3: the gate alone does not test the capacity. -/
theorem test_venc_huge : record (exec .venc (bare 4#32 0xFFFFFFFF#32 0#32)) =
    some (0b010#3, 0#3, 0#2, 0#32, 0#32) := by rfl

/-- V-G5: the length is tested before the mismatch. -/
theorem test_vdec_empty : record (exec .vdec (bare 4#32 0#32 5#32)) = some (0b100#3, 1#3, 2#2, 0#32, 0#32) := by
  rfl

/-- V-G7: which length is recorded where. -/
theorem test_vdec_mismatch : record (exec .vdec (bare 4#32 3#32 2#32)) =
    some (0b100#3, 2#3, 0#2, 2#32, 3#32) := by rfl

/-- V-E3. -/
theorem test_enc_mixed_signs : ctOf (exec .enc e3) =
    some [(0, 0x00000000001138A9#64), (1, 0xFFFFFFFFFFF08D1E#64), (2, 0xFFFFFFFFFFC2A900#64)] := by rfl

/-- V-G10. -/
theorem test_enc_capacity : record (exec .enc (bare 4#32 5#32 5#32)) =
    some (0b100#3, 5#3, 0#2, 0#32, 0#32) := by rfl

/-- V-D2. -/
theorem test_dec_mixed_signs : rotOf (exec .dec d2) = some [(0, 0x41#8), (1, 0xC8#8), (2, 0x00#8)] := by rfl

/-- V-D6: truncation toward zero. -/
theorem test_dec_truncates : rotOf (exec .dec (dec1 7#64 0x00#8 0x02#8)) = some [(0, 0xFF#8)] := by rfl

/-- V-D5. -/
theorem test_dec_zero_divisor :
    record (exec .dec (block 4#32 2#32 2#32 [] [1#8, 2#8] [0#8, 0#8] [0#64, 0#64])) =
      some (0b100#3, 3#3, 0#2, 0#32, 0#32) := by rfl

/-- V-G11: the mismatch before the capacity. -/
theorem test_dec_order : record (exec .dec (bare 4#32 5#32 4#32)) = some (0b100#3, 2#3, 0#2, 4#32, 5#32) := by
  rfl

/-! ### The arithmetic and the engines' functions -/

/-- V-A1, V-A2. -/
theorem test_reinterpretation :
    asSigned 0x80#8 = -128 ∧ asSigned 0xC8#8 = -56 ∧ asUnsigned (-1) = 0xFF#8 ∧ asUnsigned 127 = 0x7F#8 := by
  decide

/-- V-A5, V-A7, V-A10, V-A11. -/
theorem test_wrapping :
    sext64 0xC8#8 = 0xFFFFFFFFFFFFFFC8#64 ∧
    wadd 0xFFFFFFFFFFFFFFFF#64 2#64 = 1#64 ∧
    wsub 0#64 0x8000000000000000#64 = 0x8000000000000000#64 ∧
    wmul 0xFFFFFFFFFFFFFFFD#64 0xFFFFFFFFFFFFC2A9#64 = 0xB805#64 := by
  decide

/-- V-A18. -/
theorem test_dbl : dbl 0xC000000000000001#64 = 0x8000000000000002#64 := by decide

/-- V-A20, V-A22, V-A25, V-A26. -/
theorem test_sdiv :
    sdiv 0xFFFFFFFFFFFFFFF9#64 2#64 (by decide) = 0xFFFFFFFFFFFFFFFD#64 ∧
    sdiv 0xFFFFFFFFFFFFFFE4#64 16#64 (by decide) = 0xFFFFFFFFFFFFFFFF#64 ∧
    sdiv 0x7FFFFFFFFFFFFFFF#64 0x8000000000000000#64 (by decide) = 0#64 ∧
    sdiv 0x8000000000000000#64 0xFFFFFFFFFFFFFFFF#64 (by decide) = 0x8000000000000000#64 := by
  decide

/-- V-A28. -/
theorem test_trunc8 : trunc8 (word 1000) = 0xE8#8 ∧ trunc8 (word (-35454783674)) = 0x46#8 := by decide

/-- V-E4. -/
theorem test_forward_extremes :
    forward [⟨0x80#8, 0x7F#8, 0x80#8⟩, ⟨0x7F#8, 0x80#8, 0x80#8⟩, ⟨0xFF#8, 0x00#8, 0x7F#8⟩,
      ⟨0x01#8, 0xFF#8, 0x01#8⟩] =
      [0xFFFFFFFFFFA00200#64, 0x5E44FE#64, 0xFFFFFFFFFFFFBD04#64, 0xBFFC#64] := by
  rfl

/-- V-D8: overflow in the accumulators and the numerator. -/
theorem test_inverse_overflow : inverse [⟨0x7FFFFFFFFFFFFFFF#64, 0x7F#8, 0x7F#8⟩] = some [0x46#8] := by rfl

/-- V-D11: two garbage words. -/
theorem test_inverse_garbage :
    inverse [⟨0x0123456789ABCDEF#64, 0x01#8, 0x03#8⟩, ⟨0xFEDCBA9876543210#64, 0xFF#8, 0xFC#8⟩] =
      some [0x47#8, 0x53#8] := by
  rfl

/-- V-D12: the truncation absorbs a wrong IV. -/
theorem test_inverse_wrong_iv :
    inverse [⟨0x00000000001138A9#64, 0x00#8, 0x02#8⟩, ⟨0xFFFFFFFFFFF08D1E#64, 0x7F#8, 0xFD#8⟩,
      ⟨0xFFFFFFFFFFC2A900#64, 0x80#8, 0x80#8⟩] = some [0x41#8, 0xC8#8, 0x00#8] := by
  rfl

/-! ### The host port -/

/-- V-H1, V-H2. -/
theorem test_port_byte :
    (perform (bare 4#32 0#32 0#32) (.hostWrite 2 0#32 0xFFFFFFFFFFFFFFFF#64)).1.mem.iv = [(0, 0xFF#8)] ∧
    (perform (block 4#32 0#32 0#32 [] [0xFF#8] [] []) (.hostRead 2 0#32)).2 = .okData 0xFF#64 := by
  exact ⟨rfl, rfl⟩

/-- V-H4. -/
theorem test_port_register :
    (perform (bare 4#32 0#32 0#32) (.hostWrite 0 2#32 0x0000000500000003#64)).1.regs.dataLen = 3#32 := by
  rfl

/-- V-H5 to V-H8. -/
theorem test_port_refusals :
    (perform (bare 4#32 0#32 0#32) (.hostWrite 0 1#32 0#64)).2 = .err ∧
    (perform (bare 4#32 0#32 0#32) (.hostRead 0 9#32)).2 = .err ∧
    (perform (bare 4#32 0#32 0#32) (.hostRead 1 4#32)).2 = .err ∧
    (perform (bare 4#32 0#32 0#32) (.hostRead 5 0#32)).2 = .err := by
  exact ⟨rfl, rfl, rfl, rfl⟩

/-- V-H9, V-H10. -/
theorem test_port_busy :
    (perform (started .enc e3) (.hostRead 0 1#32)).2 = .okData 1#64 ∧
    (perform (started .enc e3) (.hostRead 4 0#32)).2 = .err ∧
    (perform (started .enc e3) (.hostWrite 0 0#32 0x12#64)).2 = .err ∧
    (perform (started .enc e3) (.hostRead 0 4#32)).2 = .err := by
  exact ⟨rfl, rfl, rfl, rfl⟩

/-- V-H11 and the first line of V-H12. -/
theorem test_port_capacity :
    (perform (bare 4#32 0#32 0#32) (.hostRead 0 8#32)).2 = .okData 4#64 ∧
    (perform State.reset (.hostRead 0 1#32)).2 = .okData 0#64 := by
  exact ⟨rfl, rfl⟩

/-- R87, `LDV` (P2). -/
theorem test_ldv : expandLine (.ldv .dk [0x02#64, 0xFD#64]) =
    [.tx (.hostWrite 3 0#32 0x02#64) none, .tx (.hostWrite 3 1#32 0xFD#64) none] := by rfl

/-! ### Cases that meet the statements' hypotheses -/

theorem witness_decode_iff : decode 0x00000013#32 = .ok .dec ∧ 0x00000013#32 = encode .dec := ⟨rfl, rfl⟩

theorem witness_illegal_words :
    (∃ e, decode 0x00000100#32 = .error e) ∧ (∃ e, decode 0x0000000F#32 = .error e) ∧
      (∃ e, decode 0x00000014#32 = .error e) :=
  ⟨⟨_, rfl⟩, ⟨_, rfl⟩, ⟨_, rfl⟩⟩

theorem witness_engine_runs_latched :
    (nextTurn (started .venc e3) = .engine ∧ busy (started .venc e3) = true ∧
      decode (fetch (started .venc e3)) = .ok .venc) ∧
    (nextTurn (started .vdec e3) = .engine ∧ busy (started .vdec e3) = true ∧
      decode (fetch (started .vdec e3)) = .ok .vdec) ∧
    (nextTurn (started .enc e3) = .engine ∧ busy (started .enc e3) = true ∧
      decode (fetch (started .enc e3)) = .ok .enc) ∧
    (nextTurn (started .dec d2) = .engine ∧ busy (started .dec d2) = true ∧
      decode (fetch (started .dec d2)) = .ok .dec) :=
  ⟨⟨rfl, rfl, rfl⟩, ⟨rfl, rfl, rfl⟩, ⟨rfl, rfl, rfl⟩, ⟨rfl, rfl, rfl⟩⟩

theorem witness_illegal_word_runs :
    nextTurn (startCommand 0x112#32 e3) = .engine ∧ busy (startCommand 0x112#32 e3) = true ∧
      decode (fetch (startCommand 0x112#32 e3)) = .error .reservedNotZero :=
  ⟨rfl, rfl, rfl⟩

theorem e3_written (j : Nat) (h : j < 3) : laneWritten .enc (started .enc e3) j := by
  have : j = 0 ∨ j = 1 ∨ j = 2 := by omega
  obtain rfl | rfl | rfl := this <;> exact ⟨rfl, rfl, rfl⟩

theorem witness_engine_step_ends :
    nextTurn (started .enc e3) = .engine ∧ busy (started .enc e3) = true ∧
      ∀ i, decode (fetch (started .enc e3)) = .ok i → inputsWritten i (started .enc e3) := by
  refine ⟨rfl, rfl, fun i h => ?_⟩
  have hi : Instr.enc = i := Except.ok.inj h
  subst hi
  exact fun j hj => e3_written j hj

theorem witness_refusals :
    step (started .enc (bare 4#32 1#32 1#32)) = .refused (.neverWritten .rot 0) ∧
    step (started .enc (block 4#32 2#32 1#32 [1#8, 1#8] [1#8, 1#8] [1#8] [])) =
      .refused (.neverWritten .dk 1) ∧
    step (started .dec (bare 4#32 1#32 1#32)) = .refused (.neverWritten .ct 0) :=
  ⟨rfl, rfl, rfl⟩

/-- `ENC` with n = NMAX whose last key byte was never written, and `DEC` with no ciphertext. -/
theorem witness_never_written_inputs :
    let s := started .enc (block 2#32 2#32 1#32 [1#8, 1#8] [1#8, 1#8] [1#8] [])
    let t := started .dec (block 4#32 1#32 1#32 [] [1#8] [1#8] [])
    (nextTurn s = .engine ∧ busy s = true ∧ decode (fetch s) = .ok .enc ∧ passesChecks .enc s ∧
      1 < s.regs.dataLen.toNat ∧ inputNeverWritten .enc s .dk 1) ∧
    (nextTurn t = .engine ∧ busy t = true ∧ decode (fetch t) = .ok .dec ∧ passesChecks .dec t ∧
      0 < t.regs.dataLen.toNat ∧ inputNeverWritten .dec t .ct 0) := by
  simp only [passesChecks, inputNeverWritten]
  refine ⟨⟨rfl, rfl, rfl, ?_, ?_, ?_⟩, rfl, rfl, rfl, ?_, ?_, ?_⟩ <;> decide

theorem witness_venc_clauses :
    (bare 4#32 0#32 0#32).regs.dataLen = 0#32 ∧ (bare 4#32 1#32 0#32).regs.dataLen ≠ 0#32 ∧
      (bare 4#32 0xFFFFFFFF#32 0#32).regs.dataLen ≠ 0#32 := by
  decide

theorem witness_vdec_clauses :
    (bare 4#32 0#32 5#32).regs.dataLen = 0#32 ∧
    ((bare 4#32 1#32 0#32).regs.dataLen ≠ 0#32 ∧
      (bare 4#32 1#32 0#32).regs.dataLen ≠ (bare 4#32 1#32 0#32).regs.ivLen) ∧
    ((bare 4#32 0xFFFFFFFF#32 0xFFFFFFFF#32).regs.dataLen ≠ 0#32 ∧
      (bare 4#32 0xFFFFFFFF#32 0xFFFFFFFF#32).regs.dataLen =
        (bare 4#32 0xFFFFFFFF#32 0xFFFFFFFF#32).regs.ivLen) := by
  decide

theorem witness_encrypt_path :
    (Instr.decryptPath .venc = false ∧ exec .venc e3 = .next (complete e3)) ∧
    (Instr.decryptPath .enc = false ∧ ∃ t, exec .enc e3 = .next t ∧ t.regs.status = statusDone) :=
  ⟨⟨rfl, rfl⟩, rfl, _, rfl, rfl⟩

/-- The lanes of V-E1 in a block with a free element above them. -/
def e1 : State := block 2#32 1#32 1#32 [0x41#8] [0x05#8] [0x03#8] []

theorem witness_enc_clauses :
    (bare 4#32 0#32 0#32).regs.dataLen = 0#32 ∧
    ((bare 4#32 5#32 0#32).regs.dataLen ≠ 0#32 ∧
      (bare 4#32 5#32 0#32).regs.capacity.toNat < (bare 4#32 5#32 0#32).regs.dataLen.toNat) := by
  decide

theorem witness_enc_runs_below_capacity :
    e1.regs.dataLen ≠ 0#32 ∧ e1.regs.dataLen.toNat ≤ e1.regs.capacity.toNat ∧
      ([⟨0x41#8, 0x05#8, 0x03#8⟩] : List EncLane).length = e1.regs.dataLen.toNat ∧
      ∀ (j : Nat) (h : j < ([⟨0x41#8, 0x05#8, 0x03#8⟩] : List EncLane).length),
        bufGet e1.mem.rot j = some (([⟨0x41#8, 0x05#8, 0x03#8⟩] : List EncLane)[j]).rot ∧
        bufGet e1.mem.iv j = some (([⟨0x41#8, 0x05#8, 0x03#8⟩] : List EncLane)[j]).iv ∧
        bufGet e1.mem.dk j = some (([⟨0x41#8, 0x05#8, 0x03#8⟩] : List EncLane)[j]).dk := by
  refine ⟨by decide, by decide, rfl, fun j h => ?_⟩
  have : j = 0 := by simpa using h
  subst this
  exact ⟨rfl, rfl, rfl⟩

/-- The same lanes in a block that they fill: n = NMAX. -/
theorem witness_enc_runs_at_capacity :
    ∃ t, exec .enc (block 1#32 1#32 0#32 [0x41#8] [0x05#8] [0x03#8] []) = .next t ∧
      bufGet t.mem.ct 0 = some 0xFFFFFFFFFFFFFE11#64 :=
  ⟨_, rfl, rfl⟩

/-- The clauses (a), (c) and (e) of the corner cases, which have hypotheses. -/
theorem witness_enc_corners :
    (∀ l ∈ ([⟨0x41#8, 0x01#8, 0x00#8⟩, ⟨0x42#8, 0x02#8, 0x00#8⟩] : List EncLane), l.dk = 0#8) ∧
    (∀ l ∈ ([⟨7#64, 0x01#8, 0x00#8⟩, ⟨9#64, 0x02#8, 0x00#8⟩] : List DecLane), l.dk = 0#8) ∧
    (∀ l ∈ ([⟨0x41#8, 0x41#8, 0x03#8⟩, ⟨0xC8#8, 0xC8#8, 0x80#8⟩] : List EncLane), l.rot = l.iv) ∧
    (∃ t, exec .enc (startCommand (encode .enc) e3) = .next t ∧ t.mem.ct.length = 3) := by
  refine ⟨by decide, by decide, by decide, _, rfl, rfl⟩

theorem witness_matrix : ∃ i j : Fin ([⟨1#8, 0#8, 2#8⟩, ⟨2#8, 0#8, 3#8⟩] : List EncLane).length, i ≠ j :=
  ⟨⟨0, by decide⟩, ⟨1, by decide⟩, by decide⟩

theorem witness_never_wraps :
    0 < ([⟨0x80#8, 0x7F#8, 0x80#8⟩] : List EncLane).length ∧
      ([⟨0x80#8, 0x7F#8, 0x80#8⟩] : List EncLane).length ≤ 2 ^ 32 - 1 := by
  decide

theorem witness_dec_clauses :
    (bare 4#32 0#32 5#32).regs.dataLen = 0#32 ∧
    ((bare 4#32 5#32 4#32).regs.dataLen ≠ 0#32 ∧
      (bare 4#32 5#32 4#32).regs.dataLen ≠ (bare 4#32 5#32 4#32).regs.ivLen) ∧
    ((bare 4#32 5#32 5#32).regs.dataLen ≠ 0#32 ∧
      (bare 4#32 5#32 5#32).regs.dataLen = (bare 4#32 5#32 5#32).regs.ivLen ∧
      (bare 4#32 5#32 5#32).regs.capacity.toNat < (bare 4#32 5#32 5#32).regs.dataLen.toNat) := by
  decide

/-- The lane of V-D6, and one with a zero key. -/
theorem witness_dec_runs (k : Byte) :
    (dec1 7#64 0#8 k).regs.dataLen ≠ 0#32 ∧ (dec1 7#64 0#8 k).regs.dataLen = (dec1 7#64 0#8 k).regs.ivLen ∧
      (dec1 7#64 0#8 k).regs.dataLen.toNat ≤ (dec1 7#64 0#8 k).regs.capacity.toNat ∧
      ([⟨7#64, 0#8, k⟩] : List DecLane).length = (dec1 7#64 0#8 k).regs.dataLen.toNat ∧
      ∀ (j : Nat) (h : j < ([⟨7#64, 0#8, k⟩] : List DecLane).length),
        bufGet (dec1 7#64 0#8 k).mem.ct j = some (([⟨7#64, 0#8, k⟩] : List DecLane)[j]).ct ∧
        bufGet (dec1 7#64 0#8 k).mem.iv j = some (([⟨7#64, 0#8, k⟩] : List DecLane)[j]).iv ∧
        bufGet (dec1 7#64 0#8 k).mem.dk j = some (([⟨7#64, 0#8, k⟩] : List DecLane)[j]).dk := by
  refine ⟨by show (1#32 : Len) ≠ 0#32; decide, rfl, by show 1 ≤ 4; decide, rfl, fun j h => ?_⟩
  have : j = 0 := by simpa using h
  subst this
  exact ⟨rfl, rfl, rfl⟩

theorem witness_dec_divisors :
    divisorOf [⟨7#64, 0#8, 0#8⟩] = 0#64 ∧ divisorOf [⟨7#64, 0#8, 2#8⟩] ≠ 0#64 := by
  decide

theorem witness_inverse : inverse [⟨7#64, 0#8, 0#8⟩] = none ∧ inverse [⟨7#64, 0#8, 2#8⟩] = some [0xFF#8] :=
  ⟨rfl, rfl⟩

/-- Both length clauses of the divisor statement, at their boundary (V-RT4). -/
theorem witness_divisor_lengths (l : DecLane) :
    (List.replicate 262143 l).length < 262144 ∧ (List.replicate 262143 l).length ≤ 2 ^ 32 - 1 ∧
    (List.replicate 262144 { l with dk := 0x80#8 }).length = 262144 ∧
    ∀ d ∈ List.replicate 262144 { l with dk := 0x80#8 }, d.dk = 0x80#8 := by
  refine ⟨by rw [List.length_replicate]; decide, by rw [List.length_replicate]; decide,
    List.length_replicate, fun d h => ?_⟩
  rw [List.eq_of_mem_replicate h]

/-- T² reaches 2^63 with 185364 lanes of key −128, so the divisor's signed value can be negative. -/
theorem witness_divisor_negative (l : DecLane) :
    (divisorOf (List.replicate 185364 { l with dk := 0x80#8 })).toInt < 0 := by
  have h := wsum_word (List.replicate 185364 { l with dk := 0x80#8 }) decTerm1 (fun _ => 16384)
    fun d hd => by rw [List.eq_of_mem_replicate hd]; rfl
  rw [divisorOf, h, List.map_replicate, List.sum_replicate]
  decide

/-- The lower and the upper bound of the round trip (V-RT1, V-RT2: 16384 lanes of key −128). -/
theorem witness_round_trip_bounds (r v : Byte) :
    (1 ≤ encT [⟨r, v, 0xFF#8⟩] ∧ encT [⟨r, v, 0xFF#8⟩] ≤ 2 ^ 28) ∧
    (1 ≤ encT (List.replicate 16384 ⟨r, v, 0x80#8⟩) ∧
      encT (List.replicate 16384 ⟨r, v, 0x80#8⟩) = 2 ^ 28) := by
  have h : encT (List.replicate 16384 ⟨r, v, 0x80#8⟩) = 2 ^ 28 := by
    rw [encT, List.map_replicate, List.sum_replicate]; rfl
  refine ⟨⟨?_, ?_⟩, ?_, h⟩
  · show (1 : Int) ≤ asSigned 0xFF#8 ^ 2 + 0; decide
  · show asSigned 0xFF#8 ^ 2 + 0 ≤ (2 : Int) ^ 28; decide
  · rw [h]; decide

theorem witness_round_trip_length (l : EncLane) :
    (List.replicate 16384 { l with dk := 0x01#8 }).length ≤ 16384 ∧
      ∃ d ∈ List.replicate 16384 { l with dk := 0x01#8 }, d.dk ≠ 0#8 :=
  ⟨by rw [List.length_replicate], _, List.mem_replicate.mpr ⟨by decide, rfl⟩, by show (1#8 : Byte) ≠ 0#8; decide⟩

/-- The clause without a bound on T, at one lane (V-E1). -/
theorem witness_round_trip_range :
    (∀ l ∈ ([⟨0x41#8, 0x05#8, 0x03#8⟩] : List EncLane),
      -2 ^ 63 ≤ encT [⟨0x41#8, 0x05#8, 0x03#8⟩] ^ 2 * asSigned l.rot ∧
        encT [⟨0x41#8, 0x05#8, 0x03#8⟩] ^ 2 * asSigned l.rot < 2 ^ 63) ∧
    divisorOf (decLanes [⟨0x41#8, 0x05#8, 0x03#8⟩] (forward [⟨0x41#8, 0x05#8, 0x03#8⟩])) ≠ 0#64 := by
  decide

/-- V-E3 then V-D2. -/
theorem witness_enc_then_dec :
    ∃ ls t, loadEncLanes e3 = .ok ls ∧ 1 ≤ encT ls ∧ encT ls ≤ 2 ^ 28 ∧ exec .enc e3 = .next t ∧
      t.regs.status = statusDone ∧ d2.mem.ct = t.mem.ct ∧ d2.mem.iv = t.mem.iv ∧ d2.mem.dk = t.mem.dk ∧
      d2.regs.dataLen = e3.regs.dataLen ∧ d2.regs.ivLen = e3.regs.dataLen ∧
      d2.regs.capacity = e3.regs.capacity := by
  refine ⟨[⟨0x41#8, 0xFF#8, 0x02#8⟩, ⟨0xC8#8, 0x7F#8, 0xFD#8⟩, ⟨0x00#8, 0x80#8, 0x80#8⟩], _, rfl, by decide,
    by decide, rfl, rfl, rfl, rfl, rfl, rfl, rfl, rfl⟩

/-- One case for each row of the errors' table. -/
theorem witness_engine_errors :
    exec .enc (bare 4#32 0#32 0#32) = .next (raise (.dataLength .data) (bare 4#32 0#32 0#32)) ∧
    exec .dec (bare 4#32 5#32 4#32) = .next (raise (.ivLengthMismatch 4#32 5#32) (bare 4#32 5#32 4#32)) ∧
    exec .enc (bare 4#32 5#32 4#32) = .next (raise .capacity (bare 4#32 5#32 4#32)) ∧
    exec .dec (dec1 7#64 0#8 0#8) = .next (raise .zeroDivisor (dec1 7#64 0#8 0#8)) ∧
    (raise .capacity (bare 4#32 5#32 4#32)).regs.status = statusError :=
  ⟨rfl, rfl, rfl, rfl, rfl⟩

theorem witness_failed_command :
    busy (started .dec (dec1 7#64 0#8 0#8)) = true ∧
      ∃ t, engineStep (started .dec (dec1 7#64 0#8 0#8)) = .next t ∧ t.regs.status = statusError :=
  ⟨rfl, _, rfl, rfl⟩

theorem witness_commands_complete :
    (∃ t, exec .venc e3 = .next t) ∧ (∃ t, exec .vdec e3 = .next t) ∧ (∃ t, exec .enc e3 = .next t) ∧
      (∃ t, exec .dec d2 = .next t) :=
  ⟨⟨_, rfl⟩, ⟨_, rfl⟩, ⟨_, rfl⟩, ⟨_, rfl⟩⟩

/-- `e3` with another old ciphertext and another element above n. -/
def e3' : State :=
  { e3 with mem := { e3.mem with ct := [(0, 5#64)], dk := bufSet e3.mem.dk 3 0x99#8 } }

theorem e3_same (j : Nat) (h : j < 3) :
    bufGet e3.mem.iv j = bufGet e3'.mem.iv j ∧ bufGet e3.mem.dk j = bufGet e3'.mem.dk j ∧
      bufGet e3.mem.rot j = bufGet e3'.mem.rot j := by
  have : j = 0 ∨ j = 1 ∨ j = 2 := by omega
  obtain rfl | rfl | rfl := this <;> exact ⟨rfl, rfl, rfl⟩

theorem witness_same_inputs : sameInputs .enc e3 e3' ∧ e3.mem ≠ e3'.mem ∧ ∃ t, exec .enc e3 = .next t :=
  ⟨⟨rfl, fun _ j h => e3_same j h⟩, by decide, _, rfl⟩

/-- A block whose host starts `ENC`. -/
def starting : State :=
  { e3 with host := { HostAgent.idle with script := expandLine (.run .enc) } }

/-- The host's step at a script that begins with a transaction, and at one used up. -/
theorem witness_host_step :
    (nextTurn starting = .host ∧
      starting.host.script = .tx (.hostWrite 0 0#32 0x12#64) none :: [.wait]) ∧
    (nextTurn e3 = .host ∧ e3.host.script = []) :=
  ⟨⟨rfl, rfl⟩, rfl, rfl⟩

/-- The first step of a script that starts `ENC` (30_encoding.md R86, 10_state.md R24). -/
theorem test_host_step :
    ((nextOf (step starting)).map fun t => (t.regs.cmd, t.regs.status, t.host.script)) =
      some (0x12#32, 0b001#3, [.wait]) := by rfl

/-- One step for each case of the transitions. -/
theorem witness_transitions :
    (∃ t, step e3 = .next t ∧ t.regs.status = e3.regs.status) ∧
    (∃ t, step starting = .next t ∧ nextTurn starting = .host ∧ t.regs.status = statusBusy ∧
      (perform (dropTurn starting) (.hostWrite 0 0#32 0x12#64)).2 = .ok) ∧
    (∃ t, step (started .enc e3) = .next t ∧ t.regs.status = statusDone) ∧
    (∃ t, step (started .enc (bare 4#32 0#32 0#32)) = .next t ∧ t.regs.status = statusError) ∧
    (∃ t, step (scheduled [.reset] (started .enc e3)) = .next t ∧ t.regs.status = statusIdle) :=
  ⟨⟨_, rfl, rfl⟩, ⟨_, rfl, rfl, rfl, rfl⟩, ⟨_, rfl, rfl⟩, ⟨_, rfl, rfl⟩, ⟨_, rfl, rfl⟩⟩

theorem witness_lane_orders :
    List.Perm [(⟨1#8, 2#8, 3#8⟩ : EncLane), ⟨4#8, 5#8, 6#8⟩] [⟨4#8, 5#8, 6#8⟩, ⟨1#8, 2#8, 3#8⟩] ∧
    List.Perm [(⟨1#64, 2#8, 3#8⟩ : DecLane), ⟨4#64, 5#8, 6#8⟩] [⟨4#64, 5#8, 6#8⟩, ⟨1#64, 2#8, 3#8⟩] ∧
    (inverse [⟨1#64, 2#8, 3#8⟩, ⟨4#64, 5#8, 6#8⟩]).isSome = true ∧
    (inverse [⟨4#64, 5#8, 6#8⟩, ⟨1#64, 2#8, 3#8⟩]).isSome = true :=
  ⟨List.Perm.swap _ _ _, List.Perm.swap _ _ _, rfl, rfl⟩

theorem witness_sequencer :
    busy (started .enc e1) = true ∧ (started .enc e1).eng.phase = .decode ∧
      2 * (started .enc e1).regs.dataLen.toNat + 6 ≤ 8 := by
  decide

/-- The sequencer runs V-E1 in the 8 small steps of the bound, and not in 6. -/
theorem test_sequencer_steps :
    ctOf (microRun 8 (started .enc e1)) = some [(0, 0xFFFFFFFFFFFFFE11#64)] ∧
      ((nextOf (microRun 6 (started .enc e1))).map busy = some true) :=
  ⟨rfl, rfl⟩

theorem witness_reset_event : nextTurn (scheduled [.reset, .host] (started .enc e3)) = .reset := by rfl

theorem e3_memory : memoryLegal e3 := by
  refine ⟨by decide, ?_, ?_, ?_, ?_⟩ <;> intro i h <;>
    (by_contra hc
     have h0 : ¬ 0 = i := by have : ¬ i < 4 := hc; omega
     have h1 : ¬ 1 = i := by have : ¬ i < 4 := hc; omega
     have h2 : ¬ 2 = i := by have : ¬ i < 4 := hc; omega
     simp [e3, block, bufStore, bufSet, bufGet, h0, h1, h2] at h)

theorem witness_legal_step :
    Legal e3 ∧ Legal (started .enc e3) ∧ (∃ t, step (started .enc e3) = .next t ∧ t.mem ≠ e3.mem) := by
  refine ⟨⟨Or.inl rfl, ?_, rfl, e3_memory⟩, ⟨Or.inr (Or.inl rfl), ?_, rfl, e3_memory⟩, _, rfl, by decide⟩ <;>
    (simp only [recordLegal]; decide)

theorem witness_canonical_step : e3.mem.wf ∧ ∃ t, step (started .enc e3) = .next t :=
  ⟨by decide, _, rfl⟩

theorem witness_capacity_read : busy e3 = false ∧ ∃ t, step e3 = .next t := ⟨rfl, _, rfl⟩

/-- A running command and a host that tries to write over its key. -/
def disturbed : State :=
  { started .enc e3 with host := { HostAgent.idle with
      script := [.tx (.hostWrite 3 0#32 0#64) none, .tx (.hostRead 0 1#32) none] } }

theorem witness_disturbed : busy disturbed = true ∧ ∃ t, engineStep disturbed = .next t := ⟨rfl, _, rfl⟩

/-- Each case of the port's refusals alone. -/
theorem witness_port_cases :
    (perform e3 (.hostRead 5 0#32)).2 = .err ∧ (perform e3 (.hostRead 0 9#32)).2 = .err ∧
    (perform e3 (.hostWrite 4 4#32 0#64)).2 = .err ∧ (perform e3 (.hostWrite 0 8#32 0#64)).2 = .err ∧
    (perform (started .enc e3) (.hostRead 0 0#32)).2 = .err ∧ (perform e3 (.hostRead 0 8#32)).2 ≠ .err :=
  ⟨rfl, rfl, rfl, rfl, rfl, by decide⟩

/-- Reads of each space, written and never written, at the last element and the last register. -/
theorem witness_host_reads :
    (perform e3 (.hostRead 1 2#32)).2 ≠ .err ∧ (perform e3 (.hostRead 2 2#32)).2 ≠ .err ∧
    (perform e3 (.hostRead 3 2#32)).2 ≠ .err ∧ (perform d2 (.hostRead 4 2#32)).2 ≠ .err ∧
    (perform e3 (.hostRead 0 0#32)).2 ≠ .err ∧ (perform e3 (.hostRead 0 8#32)).2 ≠ .err := by
  decide

theorem witness_host_reads_never_written :
    (perform e3 (.hostRead 1 3#32)).2 ≠ .err ∧ (perform e3 (.hostRead 4 3#32)).2 ≠ .err := by
  constructor <;> (intro h; cases h)

theorem witness_host_writes :
    (perform e3 (.hostWrite 1 3#32 1#64)).2 = .ok ∧ (perform e3 (.hostWrite 2 3#32 1#64)).2 = .ok ∧
    (perform e3 (.hostWrite 3 3#32 1#64)).2 = .ok ∧ (perform e3 (.hostWrite 4 3#32 1#64)).2 = .ok ∧
    (perform e3 (.hostWrite 0 0#32 0x12#64)).2 = .ok ∧ (perform e3 (.hostWrite 0 2#32 1#64)).2 = .ok ∧
    (perform e3 (.hostWrite 0 3#32 1#64)).2 = .ok := by
  decide

/-- After a write to `CT[3]`: another written element of another buffer, and a register. -/
theorem witness_other_reads :
    ((2, 2#32) ≠ (4, 3#32) ∧ readSpecified e3 2 2) ∧ ((0, 3#32) ≠ (4, 3#32) ∧ readSpecified e3 0 3) := by
  simp only [readSpecified]
  decide

theorem witness_wait :
    ({ started .enc e3 with host := { HostAgent.idle with script := [.wait] } } : State).host.script =
      .wait :: [] ∧
    busy ({ started .enc e3 with host := { HostAgent.idle with script := [.wait] } } : State) = true ∧
    busy ({ e3 with host := { HostAgent.idle with script := [.wait] } } : State) = false :=
  ⟨rfl, rfl, rfl⟩

theorem witness_ended : runEnded e3 ∧ e3.host.schedule = [] := ⟨⟨rfl, rfl⟩, rfl⟩

/-- The boundary values of the arithmetic statements' ranges. -/
theorem witness_arithmetic_ranges :
    ((-128 : Int) ≤ -128 ∧ (-128 : Int) ≤ 127) ∧ (8 ≤ 63 ∧ 63 < 64) ∧
    ((0xFFFFFFFFFFFFFFFF#64 : Word) ≠ 0#64 ∧
      ¬((0x8000000000000001#64 : Word) = 0x8000000000000000#64 ∧
        (0xFFFFFFFFFFFFFFFF#64 : Word).toInt = -1)) ∧
    word (-1) ≠ 0#64 ∧ (-128 ≤ (0xFFFFFFFFFFFFFF80#64 : Word).toInt ∧ (0xFFFFFFFFFFFFFF80#64 : Word).toInt ≤ 127) ∧
    (word (2 ^ 63 - 1) ≠ 0#64 ∧ (-2 ^ 63 : Int) ≤ -2 ^ 63 ∧ (-2 ^ 63 : Int) < 2 ^ 63 ∧
      (2 ^ 63 - 1 : Int) < 2 ^ 63) := by
  decide

theorem witness_sum_orders : List.Perm [1#64, 2#64, 3#64] [2#64, 1#64, 3#64] := List.Perm.swap _ _ _

/-- The lanes the widening clauses of the sign extension speak of. -/
theorem witness_widened : (⟨0xC8#8, 0x80#8, 0x7F#8⟩ : EncLane).rot = 0xC8#8 ∧
    (⟨0xC8#8, 0x80#8, 0x7F#8⟩ : EncLane).r = 0xFFFFFFFFFFFFFFC8#64 := ⟨rfl, rfl⟩

end Sys2Proof.Tests
end

/-! SUPPORT. The engine's move with `BUSY` set, said once, and the statement about the latched command. -/

namespace Sys2Proof.Proofs.Scope

open Sys2Proof Sys2Proof.Machine

/-- The schedule is not part of what the engine fetches (20_memory.md R63). -/
@[simp] theorem fetch_dropTurn (s : State) : fetch (dropTurn s) = fetch s := rfl

theorem runLatched_of_decode_ok {s : State} {i : Instr} (h : decode (fetch s) = .ok i) :
    runLatched s = exec i s := by
  rw [runLatched, h]

/-- The one case of `step_cases` that an enabled engine's move leaves. -/
theorem step_of_engine_busy {s : State} (hturn : nextTurn s = .engine) (hbusy : busy s = true) :
    step s = runLatched (dropTurn s) := by
  obtain ⟨-, -, hstep⟩ | ⟨-, hidle, -⟩ | ⟨hhost, -⟩ | ⟨hreset, -⟩ := step_cases s
  · exact hstep
  · simp [hbusy] at hidle
  · simp [hturn] at hhost
  · simp [hturn] at hreset

/-- Settles O4: the enabled engine's move is `runLatched` with the schedule's entry used, and that entry is not
part of the word fetched. -/
theorem engineStepRunsTheLatchedCommand : Obligations.EngineStepRunsTheLatchedCommand := by
  intro s i hturn hbusy hdecode
  rw [step_of_engine_busy hturn hbusy]
  exact runLatched_of_decode_ok (by rwa [fetch_dropTurn])

end Sys2Proof.Proofs.Scope

/-! SUPPORT. What one step can do to the block, said once, and the invariants that follow from it
(10_state.md R24, R31, R36, R37). -/

namespace Sys2Proof.Proofs.BlockEffects

open Sys2Proof Sys2Proof.Machine

/-! ### The block, without the host -/

/-- Two states with the same registers, buffers, engine and count of free values: only the host may differ. -/
structure SameBlock (s t : State) : Prop where
  regs  : t.regs = s.regs
  mem   : t.mem = s.mem
  eng   : t.eng = s.eng
  draws : t.draws = s.draws

theorem SameBlock.refl (s : State) : SameBlock s s := ⟨rfl, rfl, rfl, rfl⟩

theorem SameBlock.trans {s t u : State} (hst : SameBlock s t) (htu : SameBlock t u) : SameBlock s u :=
  ⟨htu.regs.trans hst.regs, htu.mem.trans hst.mem, htu.eng.trans hst.eng, htu.draws.trans hst.draws⟩

theorem SameBlock.busy {s t : State} (h : SameBlock s t) : busy t = busy s := by
  simp only [Machine.busy, h.regs]

/-- `Legal` says nothing of the host. -/
theorem SameBlock.legal {s t : State} (h : SameBlock s t) (hs : Legal s) : Legal t := by
  simpa only [Legal, statusLegal, recordLegal, sequencerLegal, memoryLegal, h.busy, h.regs, h.mem, h.eng]
    using hs

theorem dropTurn_sameBlock (s : State) : SameBlock s (dropTurn s) := ⟨rfl, rfl, rfl, rfl⟩

theorem issue_sameBlock (s : State) (x : Transaction) (e : Option Response) (rest : List HostOp) :
    SameBlock (perform s x).1 (issue s x e rest) := ⟨rfl, rfl, rfl, rfl⟩

/-! ### Writes of consecutive elements, all below NMAX -/

/-- What a command or one accepted write may do to the buffers: nothing, or consecutive elements of one of them
written, all below `cap`. -/
inductive BufferWrite (cap : Nat) (m : Memory) : Memory → Prop
  | unchanged : BufferWrite cap m m
  | rot (i : Nat) (bs : List Byte) (h : i + bs.length ≤ cap) :
      BufferWrite cap m { m with rot := bufStore m.rot i bs }
  | iv (i : Nat) (bs : List Byte) (h : i + bs.length ≤ cap) :
      BufferWrite cap m { m with iv := bufStore m.iv i bs }
  | dk (i : Nat) (bs : List Byte) (h : i + bs.length ≤ cap) :
      BufferWrite cap m { m with dk := bufStore m.dk i bs }
  | ct (i : Nat) (ws : List Word) (h : i + ws.length ≤ cap) :
      BufferWrite cap m { m with ct := bufStore m.ct i ws }

theorem BufferWrite.wf {cap : Nat} {m m' : Memory} (h : BufferWrite cap m m') (hm : m.wf) : m'.wf := by
  obtain ⟨hrot, hiv, hdk, hct⟩ := hm
  cases h with
  | unchanged => exact ⟨hrot, hiv, hdk, hct⟩
  | rot i bs => exact ⟨bufStore_wf _ i bs hrot, hiv, hdk, hct⟩
  | iv i bs => exact ⟨hrot, bufStore_wf _ i bs hiv, hdk, hct⟩
  | dk i bs => exact ⟨hrot, hiv, bufStore_wf _ i bs hdk, hct⟩
  | ct i ws => exact ⟨hrot, hiv, hdk, bufStore_wf _ i ws hct⟩

theorem indicesLegal_bufStore {width : Nat} {nmax : Len} {b : Buffer width} (hb : indicesLegal nmax b)
    {i : Nat} {xs : List (BitVec width)} (h : i + xs.length ≤ nmax.toNat) :
    indicesLegal nmax (bufStore b i xs) := by
  intro j hj
  rw [bufGet_bufStore] at hj
  split at hj
  · omega
  · exact hb j hj

theorem BufferWrite.memoryLegal {s : State} {m : Memory} (h : BufferWrite s.regs.capacity.toNat s.mem m)
    (hs : memoryLegal s) : memoryLegal { s with mem := m } := by
  refine ⟨h.wf hs.1, ?_⟩
  obtain ⟨-, hrot, hiv, hdk, hct⟩ := hs
  cases h with
  | unchanged => exact ⟨hrot, hiv, hdk, hct⟩
  | rot i bs hi => exact ⟨indicesLegal_bufStore hrot hi, hiv, hdk, hct⟩
  | iv i bs hi => exact ⟨hrot, indicesLegal_bufStore hiv hi, hdk, hct⟩
  | dk i bs hi => exact ⟨hrot, hiv, indicesLegal_bufStore hdk hi, hct⟩
  | ct i ws hi => exact ⟨hrot, hiv, hdk, indicesLegal_bufStore hct hi⟩

/-! ### How a command ends -/

/-- A mismatch is only recorded with a non-zero n, so that `ERR_DATALEN` is then non-zero (10_state.md R30):
`GateDec` tests the length first (41_validation_gate.md R131). -/
def Recordable : EngineError → Prop
  | .ivLengthMismatch _ n => n ≠ 0#32
  | _ => True

/-- The two ways a command ends, with what it can have written. -/
inductive Ending (s : State) : State → Prop
  | done (m : Memory) (h : BufferWrite s.regs.capacity.toNat s.mem m) : Ending s (complete { s with mem := m })
  | failed (e : EngineError) (h : Recordable e) : Ending s (raise e s)

theorem exec_ending {i : Instr} {s t : State} (h : exec i s = .next t) : Ending s t := by
  cases i with
  | venc =>
    obtain ⟨-, rfl⟩ | ⟨-, rfl⟩ := execVenc_cases h
    · exact .failed _ trivial
    · exact .done _ .unchanged
  | vdec =>
    obtain ⟨-, rfl⟩ | ⟨hn, -, rfl⟩ | ⟨-, -, rfl⟩ := execVdec_cases h
    · exact .failed _ trivial
    · exact .failed _ hn
    · exact .done _ .unchanged
  | enc =>
    obtain ⟨-, rfl⟩ | ⟨-, -, rfl⟩ | ⟨-, hcap, ls, hls, rfl⟩ := execEnc_cases h
    · exact .failed _ trivial
    · exact .failed _ trivial
    · obtain ⟨hlen, -⟩ := (loadEncLanes_ok_iff s ls).mp hls
      exact .done _ (.ct 0 _ (by rw [forward_length]; omega))
  | dec =>
    obtain ⟨-, rfl⟩ | ⟨hn, -, rfl⟩ | ⟨-, -, -, rfl⟩ | ⟨-, -, hcap, ls, hls, ⟨-, rfl⟩ | ⟨bs, hbs, rfl⟩⟩ :=
      execDec_cases h
    · exact .failed _ trivial
    · exact .failed _ hn
    · exact .failed _ trivial
    · exact .failed _ trivial
    · obtain ⟨hlen, -⟩ := (loadDecLanes_ok_iff s ls).mp hls
      exact .done _ (.rot 0 _ (by rw [inverse_length ls bs hbs]; omega))

theorem runLatched_ending {s t : State} (h : runLatched s = .next t) : Ending s t := by
  unfold runLatched at h
  split at h
  · exact exec_ending h
  · cases h
    exact .failed _ trivial

/-! ### What an accepted write does -/

theorem number_of_spaceOfNumber {n : Nat} {sp : Space} (h : spaceOfNumber n = some sp) : n = sp.number := by
  unfold spaceOfNumber at h
  split at h <;> cases h <;> rfl

theorem index_of_regAt {k : Nat} {r : RegName} (h : regAt k = some r) : k = r.index.toNat := by
  unfold regAt at h
  split at h <;> cases h <;> rfl

/-- The three kinds of accepted write: a start, a length, one element below NMAX (20_memory.md R53, R54). -/
inductive AcceptedWrite (s : State) (n : Nat) (i : BitVec 32) (d : Word) : State → Prop
  | start (hn : n = 0) (hi : i = 0#32) : AcceptedWrite s n i d (startCommand (d.extractLsb' 0 32) s)
  | lengths (n' m' : Len) :
      AcceptedWrite s n i d { s with regs := { s.regs with dataLen := n', ivLen := m' } }
  | element (m : Memory) (h : BufferWrite s.regs.capacity.toNat s.mem m) :
      AcceptedWrite s n i d { s with mem := m }

theorem writeReg_accepted {s : State} {n : Nat} {i : BitVec 32} {r : RegName} (d : Word)
    (hn : n = 0) (hr : regAt i.toNat = some r) (hw : r.writable = true) :
    AcceptedWrite s n i d (writeReg s r d) := by
  cases r with
  | cmd => exact .start hn (BitVec.eq_of_toNat_eq (index_of_regAt hr))
  | dataLen => exact .lengths (d.extractLsb' 0 32) s.regs.ivLen
  | ivLen => exact .lengths s.regs.dataLen (d.extractLsb' 0 32)
  | status | errCode | errBuf | errIvLen | errDataLen | capacity => cases hw

theorem writeData_accepted {s : State} {n : Nat} {i : BitVec 32} {d : Word} {sp : Space}
    (h : portRefusal s (.hostWrite n i d) = none) (hsp : spaceOfNumber n = some sp) :
    AcceptedWrite s n i d (writeData s sp i.toNat d) := by
  obtain ⟨sp', hsp', hindex, hwrite, -⟩ := (portRefusal_none_iff s _).mp h
  cases hsp.symm.trans hsp'
  cases sp with
  | reg =>
    have hw := hwrite rfl
    unfold mayWrite at hw
    unfold writeData
    cases hr : regAt i.toNat with
    | none => simp [Transaction.index, hr] at hw
    | some r =>
      simp only [Transaction.index, hr] at hw
      exact writeReg_accepted d (number_of_spaceOfNumber hsp) hr hw
  | rot => exact .element _ (.rot i.toNat [trunc8 d] (of_decide_eq_true hindex))
  | iv => exact .element _ (.iv i.toNat [trunc8 d] (of_decide_eq_true hindex))
  | dk => exact .element _ (.dk i.toNat [trunc8 d] (of_decide_eq_true hindex))
  | ct => exact .element _ (.ct i.toNat [d] (of_decide_eq_true hindex))

theorem not_busy_of_accepted_write {s : State} {n : Nat} {i : BitVec 32} {d : Word}
    (h : portRefusal s (.hostWrite n i d) = none) : busy s = false := by
  obtain ⟨-, -, -, -, hbusy⟩ := (portRefusal_none_iff s _).mp h
  exact Bool.eq_false_iff.mpr fun hb => nomatch hbusy hb

/-! ### One move of the host, one step -/

/-- A move of the host leaves the block alone, or is the accepted write at the head of the script. -/
theorem hostTurn_effect (s : State) :
    SameBlock s (hostTurn s) ∨
      ∃ n i d e rest u, s.host.script = .tx (.hostWrite n i d) e :: rest ∧ busy s = false ∧
        (perform s (.hostWrite n i d)).2 = .ok ∧ AcceptedWrite s n i d u ∧ SameBlock u (hostTurn s) := by
  obtain ⟨-, hturn⟩ | ⟨x, e, rest, hscript, hturn⟩ | ⟨rest, r, -, hturn⟩ := hostTurn_cases s
  · rw [hturn]
    exact .inl (.refl s)
  · have hsame := issue_sameBlock s x e rest
    rw [← hturn] at hsame
    obtain hs | ⟨n, i, d, sp, rfl, haccept, hsp, hs⟩ := perform_cases s x
    · rw [hs] at hsame
      exact .inl hsame
    · rw [hs] at hsame
      exact .inr ⟨n, i, d, e, rest, _, hscript, not_busy_of_accepted_write haccept,
        by rw [perform_write haccept hsp], writeData_accepted haccept hsp, hsame⟩
  · have hsame := issue_sameBlock s statusRead none r
    obtain hs | ⟨n, i, d, sp, hread, -⟩ := perform_cases s statusRead
    · rw [hs, ← hturn] at hsame
      exact .inl hsame
    · cases hread

/-- All that one step can do to the block. -/
inductive BlockEffect (s : State) : State → Prop
  | buffers (m : Memory) (h : BufferWrite s.regs.capacity.toNat s.mem m) : BlockEffect s { s with mem := m }
  | lengths (n m : Len) : BlockEffect s { s with regs := { s.regs with dataLen := n, ivLen := m } }
  | start {d : Word} {e : Option Response} {rest : List HostOp} (hturn : nextTurn s = .host)
      (hidle : busy s = false) (hscript : s.host.script = .tx (.hostWrite 0 0#32 d) e :: rest)
      (hok : (perform (dropTurn s) (.hostWrite 0 0#32 d)).2 = .ok) :
      BlockEffect s (startCommand (d.extractLsb' 0 32) s)
  | done (hturn : nextTurn s = .engine) (hbusy : busy s = true) (m : Memory)
      (h : BufferWrite s.regs.capacity.toNat s.mem m) : BlockEffect s (complete { s with mem := m })
  | failed (hturn : nextTurn s = .engine) (hbusy : busy s = true) (e : EngineError) (h : Recordable e) :
      BlockEffect s (raise e s)
  | reset (hturn : nextTurn s = .reset) : BlockEffect s (resetBlock s)

theorem hostStep_effect {s : State} (hturn : nextTurn s = .host) :
    ∃ u, BlockEffect s u ∧ SameBlock u (hostTurn (dropTurn s)) := by
  obtain hsame | ⟨n, i, d, e, rest, u, hscript, hidle, hok, hwrite, hsame⟩ := hostTurn_effect (dropTurn s)
  · exact ⟨s, .buffers _ .unchanged, (dropTurn_sameBlock s).trans hsame⟩
  · cases hwrite with
    | start hn hi =>
      subst hn hi
      exact ⟨_, .start hturn hidle hscript hok, hsame.regs, hsame.mem, hsame.eng, hsame.draws⟩
    | lengths n' m' => exact ⟨_, .lengths n' m', hsame.regs, hsame.mem, hsame.eng, hsame.draws⟩
    | element m hm => exact ⟨_, .buffers m hm, hsame.regs, hsame.mem, hsame.eng, hsame.draws⟩

theorem engineStep_effect {s t : State} (hturn : nextTurn s = .engine) (hbusy : busy s = true)
    (h : runLatched (dropTurn s) = .next t) : ∃ u, BlockEffect s u ∧ SameBlock u t := by
  cases runLatched_ending h with
  | done m hm => exact ⟨_, .done hturn hbusy m hm, rfl, rfl, rfl, rfl⟩
  | failed e he => exact ⟨_, .failed hturn hbusy e he, rfl, rfl, rfl, rfl⟩

/-- What one step can do to the block, said once: the invariants below are case splits over it. -/
theorem step_effect {s t : State} (h : step s = .next t) : ∃ u, BlockEffect s u ∧ SameBlock u t := by
  obtain ⟨hturn, hbusy, hstep⟩ | ⟨-, -, hstep⟩ | ⟨hturn, hstep⟩ | ⟨hturn, hstep⟩ := step_cases s
  · exact engineStep_effect hturn hbusy (hstep.symm.trans h)
  · cases hstep.symm.trans h
    exact ⟨s, .buffers _ .unchanged, dropTurn_sameBlock s⟩
  · cases hstep.symm.trans h
    exact hostStep_effect hturn
  · cases hstep.symm.trans h
    exact ⟨_, .reset hturn, rfl, rfl, rfl, rfl⟩

/-! ### The error record and `STATUS` -/

/-- The four error registers hold 0. -/
def RecordClear (s : State) : Prop :=
  s.regs.errCode = 0#3 ∧ s.regs.errBuf = 0#2 ∧ s.regs.errIvLen = 0#32 ∧ s.regs.errDataLen = 0#32

/-- Away from `ERROR` the record is legal exactly when it is clear (10_state.md R37 (b) to (d)). -/
theorem recordLegal_iff_clear {s : State} (h : s.regs.status ≠ statusError) :
    recordLegal s ↔ RecordClear s := by
  constructor
  · rintro ⟨hcode, hbuf, hiv, hdata, -, -⟩
    have hzero : s.regs.errCode = 0#3 := not_not.mp (mt hcode.mp h)
    simp only [hzero] at hbuf hiv hdata
    exact ⟨hzero, not_not.mp (mt hbuf (by decide)), not_not.mp (mt hiv (by decide)),
      not_not.mp (mt hdata.mp (by decide))⟩
  · rintro ⟨hcode, hbuf, hiv, hdata⟩
    simp [recordLegal, hcode, hbuf, hiv, hdata, h]

theorem recordLegal_raise {e : EngineError} (h : Recordable e) (s : State) : recordLegal (raise e s) := by
  cases e with
  | dataLength b => cases b <;> simp [recordLegal, errorCode, errorBuf, errorIvLen, errorDataLen, bufferCode]
  | ivLengthMismatch m n =>
    have hn : n ≠ 0#32 := h
    simpa [recordLegal, errorCode, errorBuf, errorIvLen, errorDataLen] using hn
  | zeroDivisor | badCmd | capacity =>
    simp [recordLegal, errorCode, errorBuf, errorIvLen, errorDataLen]

theorem status_ne_error_of_busy {s : State} (h : busy s = true) : s.regs.status ≠ statusError := by
  intro hs
  simp [busy, hs, statusError] at h

/-! ### Each effect keeps the invariant -/

theorem legal_startCommand {s : State} (w : CommandWord) (h : Legal s) : Legal (startCommand w s) := by
  obtain ⟨-, -, -, hmem⟩ := h
  refine ⟨.inr (.inl rfl), (recordLegal_iff_clear ?_).mpr ⟨rfl, rfl, rfl, rfl⟩, ?_, hmem⟩
  · exact status_ne_error_of_busy (busy_startCommand w s)
  · simp [sequencerLegal]

/-- A command only ends from `BUSY`, where a legal record is clear; so success leaves it clear. -/
theorem legal_complete {s : State} (h : Legal s) (hbusy : busy s = true) {m : Memory}
    (hm : BufferWrite s.regs.capacity.toNat s.mem m) : Legal (complete { s with mem := m }) := by
  obtain ⟨-, hrecord, -, hmem⟩ := h
  have hclear : RecordClear s := (recordLegal_iff_clear (status_ne_error_of_busy hbusy)).mp hrecord
  refine ⟨.inr (.inr (.inl rfl)), (recordLegal_iff_clear ?_).mpr hclear, ?_, hm.memoryLegal hmem⟩
  · simp [statusDone, statusError]
  · simp [sequencerLegal]

theorem legal_raise {s : State} (h : Legal s) {e : EngineError} (he : Recordable e) : Legal (raise e s) := by
  obtain ⟨-, -, -, hmem⟩ := h
  exact ⟨.inr (.inr (.inr rfl)), recordLegal_raise he s, by simp [sequencerLegal], hmem⟩

theorem empty_wf : Memory.empty.wf := by decide

theorem indicesLegal_nil {width : Nat} (nmax : Len) : indicesLegal nmax ([] : Buffer width) := nofun

theorem memoryLegal_empty {s : State} (h : s.mem = Memory.empty) : memoryLegal s := by
  rw [memoryLegal, h]
  exact ⟨empty_wf, indicesLegal_nil _, indicesLegal_nil _, indicesLegal_nil _, indicesLegal_nil _⟩

/-- A block with its registers, buffers and engine at their reset values is legal, whatever its NMAX
(10_state.md R36). -/
theorem legal_of_reset {s : State} {nmax : Len} (hregs : s.regs = Regs.reset nmax)
    (hmem : s.mem = Memory.empty) (heng : s.eng = Engine.reset) : Legal s := by
  refine ⟨.inl ?_, (recordLegal_iff_clear ?_).mpr ?_, ?_, memoryLegal_empty hmem⟩
  · rw [hregs]; rfl
  · rw [hregs]; simp [Regs.reset, statusError]
  · simp [RecordClear, hregs, Regs.reset]
  · simp [sequencerLegal, busy, hregs, heng, Regs.reset, Engine.reset]

theorem BlockEffect.legal {s u : State} (h : BlockEffect s u) (hs : Legal s) : Legal u := by
  cases h with
  | buffers m hm =>
    obtain ⟨hstatus, hrecord, hphase, hmem⟩ := hs
    exact ⟨hstatus, hrecord, hphase, hm.memoryLegal hmem⟩
  | lengths n m => exact hs
  | start => exact legal_startCommand _ hs
  | done _ hbusy m hm => exact legal_complete hs hbusy hm
  | failed _ _ e he => exact legal_raise hs he
  | reset => exact legal_of_reset rfl rfl rfl

/-- Settles O37: every effect a step can have on the block keeps the invariant. -/
theorem stepKeepsTheStateLegal : Obligations.StepKeepsTheStateLegal := by
  intro s t hs hstep
  obtain ⟨u, heffect, hsame⟩ := step_effect hstep
  exact hsame.legal (heffect.legal hs)

/-- Settles O36. -/
theorem resetStateIsLegal : Obligations.ResetStateIsLegal :=
  fun _ => legal_of_reset rfl rfl rfl

theorem BlockEffect.wf {s u : State} (h : BlockEffect s u) (hs : s.mem.wf) : u.mem.wf := by
  cases h with
  | buffers m hm => exact hm.wf hs
  | done _ _ m hm => exact hm.wf hs
  | reset => exact empty_wf
  | lengths | start | failed => exact hs

/-- Settles O38: every write goes through `bufStore`, and a reset empties the buffers. -/
theorem stepKeepsBuffersCanonical : Obligations.StepKeepsBuffersCanonical := by
  intro s t hs hstep
  obtain ⟨u, heffect, hsame⟩ := step_effect hstep
  rw [hsame.mem]
  exact heffect.wf hs

theorem BlockEffect.capacity {s u : State} (h : BlockEffect s u) : u.regs.capacity = s.regs.capacity := by
  cases h <;> rfl

/-! ### Reads of registers -/

/-- A read of a control register is answered with its value, while `BUSY` that of `STATUS` only (20_memory.md R52,
R54 case 4). -/
theorem perform_read_reg {s : State} (r : RegName) (h : busy s = true → r = .status) :
    perform s (.hostRead 0 r.index) = (s, .okData (readReg s.regs r)) := by
  have haccept : portRefusal s (.hostRead 0 r.index) = none := by
    refine (portRefusal_none_iff s _).mpr ⟨.reg, rfl, ?_, nofun, fun hb => ?_⟩
    · simp [Transaction.index, indexExists, regAt_index]
    · rw [h hb]; rfl
  rw [perform_read haccept rfl]
  simp only [readData, regAt_index]

/-- Settles O46. -/
theorem statusCanAlwaysBeRead : Obligations.StatusCanAlwaysBeRead :=
  fun _ => perform_read_reg .status fun _ => rfl

/-- Settles O39: no effect of a step touches `CAPACITY`, and an idle block shows it. -/
theorem capacityIsConstant : Obligations.CapacityIsConstant := by
  constructor
  · intro s t hstep
    obtain ⟨u, heffect, hsame⟩ := step_effect hstep
    rw [hsame.regs, heffect.capacity]
  · intro s hidle
    rw [BitVec.ofNat_toNat]
    exact perform_read_reg .capacity fun hb => by simp [hidle] at hb

/-! ### The transitions of `STATUS` -/

theorem errorCode_ne_zero (e : EngineError) : errorCode e ≠ 0#3 := by
  cases e <;> simp [errorCode]

/-- Settles O31: the transitions are the effects of a step, read off one by one. -/
theorem statusFollowsItsTransitions : Obligations.StatusFollowsItsTransitions := by
  intro s t hstep record clear
  obtain ⟨u, heffect, hsame⟩ := step_effect hstep
  have hrecord : record t = record u := by simp only [record, hsame.regs]
  rw [hrecord, hsame.regs]
  cases heffect with
  | buffers | lengths => exact .inl ⟨rfl, rfl⟩
  | @start d e rest hturn hidle hscript hok =>
    exact .inr (.inl ⟨hturn, hidle, rfl, rfl, d, e, rest, hscript, hok,
      (BitVec.setWidth_eq_extractLsb' (by decide)).symm⟩)
  | done hturn hbusy => exact .inr (.inr (.inl ⟨hturn, hbusy, rfl, rfl⟩))
  | failed hturn hbusy e =>
    exact .inr (.inr (.inr (.inl ⟨hturn, hbusy, rfl, errorCode_ne_zero e⟩)))
  | reset hturn => exact .inr (.inr (.inr (.inr ⟨hturn, rfl, rfl⟩)))

/-! ### A running command and the host -/

/-- While `BUSY` no transaction is an accepted write, so a move of the host leaves the block alone. -/
theorem hostTurn_sameBlock_of_busy {s : State} (h : busy s = true) : SameBlock s (hostTurn s) := by
  obtain hsame | ⟨-, -, -, -, -, -, -, hidle, -⟩ := hostTurn_effect s
  · exact hsame
  · simp [h] at hidle

theorem hostTurn_iterate_sameBlock_of_busy {s : State} (h : busy s = true) (k : Nat) :
    SameBlock s (hostTurn^[k] s) := by
  induction k with
  | zero => exact .refl s
  | succ k ih =>
    rw [Function.iterate_succ_apply']
    exact ih.trans (hostTurn_sameBlock_of_busy (ih.busy.trans h))

/-- Settles O40, by induction on the number of the host's moves. -/
theorem hostCannotDisturbARunningCommand : Obligations.HostCannotDisturbARunningCommand := by
  intro s k hbusy
  obtain ⟨hregs, hmem, heng, hdraws⟩ := hostTurn_iterate_sameBlock_of_busy hbusy k
  exact ⟨hregs, hmem, heng, hdraws⟩

/-! ### The state after reset -/

/-- Settles O34. -/
theorem resetLeavesTheStatedValues : Obligations.ResetLeavesTheStatedValues :=
  ⟨fun _ => ⟨rfl, fun _ => ⟨rfl, rfl, rfl, rfl⟩, rfl⟩, Config.nmax, by decide, rfl⟩

end Sys2Proof.Proofs.BlockEffects

/-! SUPPORT. What each command answers under each of its conditions, and what its result depends on
(10_state.md R24, R26, R34). -/

namespace Sys2Proof.Proofs.Results

open Sys2Proof Sys2Proof.Machine

/-! ### The commands' answers, one equation per condition -/

theorem gateEnc_empty {n : Len} (hn : n = 0#32) : gateEnc n = some (.dataLength .data) := if_pos hn

theorem gateEnc_eq_none_iff {n : Len} : gateEnc n = none ↔ n ≠ 0#32 := by
  simp [gateEnc]

theorem gateDec_empty {n : Len} (m : Len) (hn : n = 0#32) : gateDec n m = some (.dataLength .ciphertext) :=
  if_pos hn

theorem gateDec_mismatch {n m : Len} (hn : n ≠ 0#32) (hm : n ≠ m) :
    gateDec n m = some (.ivLengthMismatch m n) := by
  rw [gateDec, if_neg hn, if_pos hm]

theorem gateDec_eq_none_iff {n m : Len} : gateDec n m = none ↔ n ≠ 0#32 ∧ n = m := by
  by_cases hn : n = 0#32 <;> simp [gateDec, hn]

theorem capacityCheck_exceeded {s : State} (h : s.regs.capacity.toNat < (lengthN s).toNat) :
    capacityCheck s = some .capacity := if_pos h

theorem capacityCheck_eq_none_iff {s : State} :
    capacityCheck s = none ↔ (lengthN s).toNat ≤ s.regs.capacity.toNat := by
  simp [capacityCheck]

theorem execVenc_failed {s : State} {e : EngineError} (h : gateEnc (lengthN s) = some e) :
    execVenc s = .next (raise e s) := by
  rw [execVenc, h]

theorem execVenc_passed {s : State} (h : gateEnc (lengthN s) = none) : execVenc s = .next (complete s) := by
  rw [execVenc, h]

theorem execVdec_failed {s : State} {e : EngineError} (h : gateDec (lengthN s) (lengthM s) = some e) :
    execVdec s = .next (raise e s) := by
  rw [execVdec, h]

theorem execVdec_passed {s : State} (h : gateDec (lengthN s) (lengthM s) = none) :
    execVdec s = .next (complete s) := by
  rw [execVdec, h]

theorem execEnc_failed {s : State} {e : EngineError} (h : gateEnc (lengthN s) = some e) :
    execEnc s = .next (raise e s) := by
  rw [execEnc, h]

theorem execEnc_exceeded {s : State} {e : EngineError} (hgate : gateEnc (lengthN s) = none)
    (hcap : capacityCheck s = some e) : execEnc s = .next (raise e s) := by
  simp only [execEnc, hgate, hcap]

theorem execEnc_of_lanes {s : State} {ls : List EncLane} (hn : lengthN s ≠ 0#32)
    (hcap : (lengthN s).toNat ≤ s.regs.capacity.toNat) (hls : loadEncLanes s = .ok ls) :
    execEnc s = .next (complete (storeCt s (forward ls))) := by
  simp only [execEnc_run hn hcap, hls]

theorem execDec_failed {s : State} {e : EngineError} (h : gateDec (lengthN s) (lengthM s) = some e) :
    execDec s = .next (raise e s) := by
  rw [execDec, h]

theorem execDec_exceeded {s : State} {e : EngineError} (hgate : gateDec (lengthN s) (lengthM s) = none)
    (hcap : capacityCheck s = some e) : execDec s = .next (raise e s) := by
  simp only [execDec, hgate, hcap]

theorem execDec_of_zero_divisor {s : State} {ls : List DecLane} (hn : lengthN s ≠ 0#32)
    (hm : lengthN s = lengthM s) (hcap : (lengthN s).toNat ≤ s.regs.capacity.toNat)
    (hls : loadDecLanes s = .ok ls) (hz : inverse ls = none) : execDec s = .next (raise .zeroDivisor s) := by
  simp only [execDec_run hn hm hcap, hls, hz]

theorem execDec_of_lanes {s : State} {ls : List DecLane} {bs : List Byte} (hn : lengthN s ≠ 0#32)
    (hm : lengthN s = lengthM s) (hcap : (lengthN s).toNat ≤ s.regs.capacity.toNat)
    (hls : loadDecLanes s = .ok ls) (hbs : inverse ls = some bs) :
    execDec s = .next (complete (storeRot s bs)) := by
  simp only [execDec_run hn hm hcap, hls, hbs]

/-! ### The encrypt path and `IV_LEN` -/

/-- The state with another value in `IV_LEN`. -/
def withIvLen (m : Len) (s : State) : State :=
  { s with regs := { s.regs with ivLen := m } }

theorem execVenc_withIvLen {s t : State} (m : Len) (h : execVenc s = .next t) :
    execVenc (withIvLen m s) = .next (withIvLen m t) := by
  obtain ⟨hn, rfl⟩ | ⟨hn, rfl⟩ := execVenc_cases h
  · exact execVenc_failed (s := withIvLen m s) (gateEnc_empty hn)
  · exact execVenc_passed (s := withIvLen m s) (gateEnc_eq_none_iff.mpr hn)

theorem execEnc_withIvLen {s t : State} (m : Len) (h : execEnc s = .next t) :
    execEnc (withIvLen m s) = .next (withIvLen m t) := by
  obtain ⟨hn, rfl⟩ | ⟨hn, hcap, rfl⟩ | ⟨hn, hcap, ls, hls, rfl⟩ := execEnc_cases h
  · exact execEnc_failed (s := withIvLen m s) (gateEnc_empty hn)
  · exact execEnc_exceeded (s := withIvLen m s) (gateEnc_eq_none_iff.mpr hn) (capacityCheck_exceeded hcap)
  · exact execEnc_of_lanes (s := withIvLen m s) hn hcap hls

/-- Settles O14: on the encrypt path a command commutes with a change of `IV_LEN`. -/
theorem encryptPathIgnoresIvLength : Obligations.EncryptPathIgnoresIvLength := by
  intro i s t m hpath h
  cases i with
  | venc => exact ⟨withIvLen m t, execVenc_withIvLen m h, rfl, rfl⟩
  | enc => exact ⟨withIvLen m t, execEnc_withIvLen m h, rfl, rfl⟩
  | vdec | dec => cases hpath

/-! ### The result and the inputs -/

/-- The state with the same registers and everything else another state's. -/
def withRegsOf (s s' : State) : State :=
  { s' with regs := s.regs }

theorem withRegsOf_eq {s s' : State} (h : s.regs = s'.regs) : withRegsOf s s' = s' := by
  rw [withRegsOf, h]

/-- The two ends of a command show the same registers, and after success the same output elements 0..n−1
(10_state.md R34). -/
def SameResult (i : Instr) (n : Nat) (t t' : State) : Prop :=
  t'.regs = t.regs ∧
    (t.regs.status = statusDone → ∀ j, j < n →
      (i = .enc → bufGet t'.mem.ct j = bufGet t.mem.ct j) ∧
      (i = .dec → bufGet t'.mem.rot j = bufGet t.mem.rot j))

theorem sameResult_raise (i : Instr) (n : Nat) (e : EngineError) (s s' : State) :
    SameResult i n (raise e s) (raise e (withRegsOf s s')) :=
  ⟨rfl, fun h => by simp [statusDone, statusError] at h⟩

/-- The two gate commands have no output element. -/
theorem sameResult_complete {i : Instr} (h : i.runsTransform = false) (n : Nat) (s s' : State) :
    SameResult i n (complete s) (complete (withRegsOf s s')) := by
  refine ⟨rfl, fun _ _ _ => ?_⟩
  cases i with
  | venc | vdec => exact ⟨nofun, nofun⟩
  | enc | dec => cases h

theorem sameResult_storeCt {n : Nat} {ws : List Word} (hlen : ws.length = n) (s s' : State) :
    SameResult .enc n (complete (storeCt s ws)) (complete (storeCt (withRegsOf s s') ws)) := by
  refine ⟨rfl, fun _ j hj => ⟨fun _ => ?_, nofun⟩⟩
  simp only [complete_mem, storeCt_mem, bufGet_bufStore_zero, hlen, if_pos hj]

theorem sameResult_storeRot {n : Nat} {bs : List Byte} (hlen : bs.length = n) (s s' : State) :
    SameResult .dec n (complete (storeRot s bs)) (complete (storeRot (withRegsOf s s') bs)) := by
  refine ⟨rfl, fun _ j hj => ⟨nofun, fun _ => ?_⟩⟩
  simp only [complete_mem, storeRot_mem, bufGet_bufStore_zero, hlen, if_pos hj]

/-- The command's lanes are what `sameInputs` compares. -/
theorem loadEncLanes_of_sameInputs {s s' : State} {ls : List EncLane}
    (h : sameInputs .enc s (withRegsOf s s')) (hls : loadEncLanes s = .ok ls) :
    loadEncLanes (withRegsOf s s') = .ok ls := by
  obtain ⟨-, hlanes⟩ := h
  obtain ⟨hlen, hload⟩ := (loadEncLanes_ok_iff s ls).mp hls
  refine (loadEncLanes_ok_iff _ ls).mpr ⟨hlen, fun j hj => ?_⟩
  obtain ⟨hcap, hrot, hiv, hdk⟩ := hload j hj
  obtain ⟨hiv', hdk', hrot'⟩ := hlanes rfl j (hlen ▸ hj)
  exact ⟨hcap, hrot'.symm.trans hrot, hiv'.symm.trans hiv, hdk'.symm.trans hdk⟩

theorem loadDecLanes_of_sameInputs {s s' : State} {ls : List DecLane}
    (h : sameInputs .dec s (withRegsOf s s')) (hls : loadDecLanes s = .ok ls) :
    loadDecLanes (withRegsOf s s') = .ok ls := by
  obtain ⟨-, hlanes⟩ := h
  obtain ⟨hlen, hload⟩ := (loadDecLanes_ok_iff s ls).mp hls
  refine (loadDecLanes_ok_iff _ ls).mpr ⟨hlen, fun j hj => ?_⟩
  obtain ⟨hcap, hct, hiv, hdk⟩ := hload j hj
  obtain ⟨hiv', hdk', hct'⟩ := hlanes rfl j (hlen ▸ hj)
  exact ⟨hcap, hct'.symm.trans hct, hiv'.symm.trans hiv, hdk'.symm.trans hdk⟩

theorem execVenc_withRegsOf {s t : State} (s' : State) (h : execVenc s = .next t) :
    ∃ t', execVenc (withRegsOf s s') = .next t' ∧ SameResult .venc s.regs.dataLen.toNat t t' := by
  obtain ⟨hn, rfl⟩ | ⟨hn, rfl⟩ := execVenc_cases h
  · exact ⟨_, execVenc_failed (gateEnc_empty hn), sameResult_raise _ _ _ s s'⟩
  · exact ⟨_, execVenc_passed (gateEnc_eq_none_iff.mpr hn), sameResult_complete rfl _ s s'⟩

theorem execVdec_withRegsOf {s t : State} (s' : State) (h : execVdec s = .next t) :
    ∃ t', execVdec (withRegsOf s s') = .next t' ∧ SameResult .vdec s.regs.dataLen.toNat t t' := by
  obtain ⟨hn, rfl⟩ | ⟨hn, hm, rfl⟩ | ⟨hn, hm, rfl⟩ := execVdec_cases h
  · exact ⟨_, execVdec_failed (gateDec_empty _ hn), sameResult_raise _ _ _ s s'⟩
  · exact ⟨_, execVdec_failed (gateDec_mismatch hn hm), sameResult_raise _ _ _ s s'⟩
  · exact ⟨_, execVdec_passed (gateDec_eq_none_iff.mpr ⟨hn, hm⟩), sameResult_complete rfl _ s s'⟩

theorem execEnc_withRegsOf {s s' t : State} (hinputs : sameInputs .enc s (withRegsOf s s'))
    (h : execEnc s = .next t) :
    ∃ t', execEnc (withRegsOf s s') = .next t' ∧ SameResult .enc s.regs.dataLen.toNat t t' := by
  obtain ⟨hn, rfl⟩ | ⟨hn, hcap, rfl⟩ | ⟨hn, hcap, ls, hls, rfl⟩ := execEnc_cases h
  · exact ⟨_, execEnc_failed (gateEnc_empty hn), sameResult_raise _ _ _ s s'⟩
  · exact ⟨_, execEnc_exceeded (gateEnc_eq_none_iff.mpr hn) (capacityCheck_exceeded hcap),
      sameResult_raise _ _ _ s s'⟩
  · obtain ⟨hlen, -⟩ := (loadEncLanes_ok_iff s ls).mp hls
    exact ⟨_, execEnc_of_lanes hn hcap (loadEncLanes_of_sameInputs hinputs hls),
      sameResult_storeCt ((forward_length ls).trans hlen) s s'⟩

theorem execDec_withRegsOf {s s' t : State} (hinputs : sameInputs .dec s (withRegsOf s s'))
    (h : execDec s = .next t) :
    ∃ t', execDec (withRegsOf s s') = .next t' ∧ SameResult .dec s.regs.dataLen.toNat t t' := by
  obtain ⟨hn, rfl⟩ | ⟨hn, hm, rfl⟩ | ⟨hn, hm, hcap, rfl⟩ |
    ⟨hn, hm, hcap, ls, hls, ⟨hz, rfl⟩ | ⟨bs, hbs, rfl⟩⟩ := execDec_cases h
  · exact ⟨_, execDec_failed (gateDec_empty _ hn), sameResult_raise _ _ _ s s'⟩
  · exact ⟨_, execDec_failed (gateDec_mismatch hn hm), sameResult_raise _ _ _ s s'⟩
  · exact ⟨_, execDec_exceeded (gateDec_eq_none_iff.mpr ⟨hn, hm⟩) (capacityCheck_exceeded hcap),
      sameResult_raise _ _ _ s s'⟩
  · exact ⟨_, execDec_of_zero_divisor hn hm hcap (loadDecLanes_of_sameInputs hinputs hls) hz,
      sameResult_raise _ _ _ s s'⟩
  · obtain ⟨hlen, -⟩ := (loadDecLanes_ok_iff s ls).mp hls
    exact ⟨_, execDec_of_lanes hn hm hcap (loadDecLanes_of_sameInputs hinputs hls) hbs,
      sameResult_storeRot ((inverse_length ls bs hbs).trans hlen) s s'⟩

/-- Settles O30: the command ends under the same condition in both states, from the same lanes. -/
theorem resultDependsOnInputsOnly : Obligations.ResultDependsOnInputsOnly := by
  intro i s s' t hinputs h
  have hs' : withRegsOf s s' = s' := withRegsOf_eq hinputs.1
  rw [← hs'] at hinputs ⊢
  cases i with
  | venc => exact execVenc_withRegsOf s' h
  | vdec => exact execVdec_withRegsOf s' h
  | enc => exact execEnc_withRegsOf hinputs h
  | dec => exact execDec_withRegsOf hinputs h

/-! ### A placed command -/

theorem decode_encode (i : Instr) : decode (encode i) = .ok i := by
  obtain ⟨-, -, -, -, h⟩ : Laws.OpcodeMap.Statement i := by
    cases i with
    | venc => exact Laws.OpcodeMap.venc
    | vdec => exact Laws.OpcodeMap.vdec
    | enc => exact Laws.OpcodeMap.enc
    | dec => exact Laws.OpcodeMap.dec
  exact h

/-- Using the schedule's entry of a placed word leaves the started command. -/
theorem dropTurn_withFetchWord (s : State) (w : CommandWord) :
    dropTurn (s.withFetchWord 32 w.toNat) = startCommand w s := by
  have hw : BitVec.ofNat 32 (w.toNat % 2 ^ 32) = w := by
    rw [Nat.mod_eq_of_lt w.isLt, BitVec.ofNat_toNat, BitVec.setWidth_eq]
  rw [State.withFetchWord, hw]
  rfl

/-- Settles O6: the engine's move is next, and it runs the word that was started. -/
theorem placedCommandRunsNext : Obligations.PlacedCommandRunsNext := by
  intro s i
  have hstep : step (s.withFetchWord 32 (encode i).toNat) = _ :=
    Scope.step_of_engine_busy rfl (busy_startCommand _ s)
  rw [hstep, dropTurn_withFetchWord]
  exact Scope.runLatched_of_decode_ok (decode_encode i)

end Sys2Proof.Proofs.Results

/-! SUPPORT. The sequencer against the atomic step (10_state.md R33, 92_eei_decisions.md D31): a pass over the
lanes is one lemma, its state is a function of the lanes done, and each command is a chain of phases. -/

namespace Sys2Proof.Proofs.Sequencer

open Sys2Proof Sys2Proof.Machine
open Sys2Proof.Proofs.Results

/-! ### Small steps -/

theorem microRun_of_not_busy {s : State} (h : busy s = false) (k : Nat) : microRun k s = .next s := by
  cases k with
  | zero => rfl
  | succ k => rw [microRun, if_neg (by simp [h])]

theorem microRun_succ_next {s t : State} (hbusy : busy s = true) (h : microStep s = .next t) (k : Nat) :
    microRun (k + 1) s = microRun k t := by
  rw [microRun, if_pos hbusy, h]

theorem microRun_succ_stop {s : State} {e : Stop} (hbusy : busy s = true) (h : microStep s = e.outcome)
    (k : Nat) : microRun (k + 1) s = e.outcome := by
  rw [microRun, if_pos hbusy, h]
  cases e <;> rfl

/-- A small step that ends the command ends the run. -/
theorem microRun_succ_end {s t : State} (hbusy : busy s = true) (h : microStep s = .next t)
    (hend : busy t = false) (k : Nat) : microRun (k + 1) s = .next t := by
  rw [microRun_succ_next hbusy h, microRun_of_not_busy hend]

theorem microStep_of_decode_ok {s : State} {i : Instr} (hword : decode (fetch s) = .ok i) :
    microStep s = seqPhase i s := by
  rw [microStep, hword]

theorem microStep_of_decode_error {s : State} {e : DecodeError} (h : decode (fetch s) = .error e) :
    microStep s = .next (raise .badCmd s) := by
  rw [microStep, h]

/-! ### Loading, then going on -/

/-- Go on with what a load gives, or stop as it does. -/
def afterLoad {α : Type} (x : Except Stop α) (f : α → Host.Outcome State Fault Refusal) :
    Host.Outcome State Fault Refusal :=
  match x with
  | .ok a => f a
  | .error e => e.outcome

@[simp] theorem afterLoad_ok {α : Type} (a : α) (f : α → Host.Outcome State Fault Refusal) :
    afterLoad (.ok a) f = f a := rfl

@[simp] theorem afterLoad_error {α : Type} (e : Stop) (f : α → Host.Outcome State Fault Refusal) :
    afterLoad (.error e) f = e.outcome := rfl

/-- `collect` loads the first lane and then the others. -/
theorem afterLoad_collect_succ {α : Type} (load : Nat → Except Stop α) (i r : Nat)
    (f : List α → Host.Outcome State Fault Refusal) :
    afterLoad (collect load i (r + 1)) f =
      afterLoad (load i) fun x => afterLoad (collect load (i + 1) r) fun xs => f (x :: xs) := by
  rw [collect]
  cases load i with
  | error e => rfl
  | ok x => cases collect load (i + 1) r <;> rfl

/-- A pass: where the state after the lanes `ls` is `σ ls` and each small step loads the next lane, `r` more small
steps load `r` more lanes, and stop where `collect` stops. -/
theorem microRun_pass {α : Type} {i : Instr} {n : Nat} (load : Nat → Except Stop α) (σ : List α → State)
    (hbusy : ∀ ls, busy (σ ls) = true) (hword : ∀ ls, decode (fetch (σ ls)) = .ok i)
    (hstep : ∀ ls, ls.length < n →
      seqPhase i (σ ls) = afterLoad (load ls.length) fun l => .next (σ (ls ++ [l])))
    (r k : Nat) (ls : List α) (hr : ls.length + r = n) :
    microRun (k + r) (σ ls) =
      afterLoad (collect load ls.length r) fun xs => microRun k (σ (ls ++ xs)) := by
  induction r generalizing ls with
  | zero => simp [collect]
  | succ r ih =>
    have hthis := (microStep_of_decode_ok (hword ls)).trans (hstep ls (by omega))
    rw [afterLoad_collect_succ, ← Nat.add_assoc]
    cases hload : load ls.length with
    | error e =>
      rw [hload] at hthis
      exact microRun_succ_stop (hbusy ls) hthis _
    | ok l =>
      rw [hload] at hthis
      rw [microRun_succ_next (hbusy ls) hthis, ih (ls ++ [l]) (by simp; omega)]
      simp

theorem microRun_pass_all {α : Type} {i : Instr} {n : Nat} (load : Nat → Except Stop α) (σ : List α → State)
    (hbusy : ∀ ls, busy (σ ls) = true) (hword : ∀ ls, decode (fetch (σ ls)) = .ok i)
    (hstep : ∀ ls, ls.length < n →
      seqPhase i (σ ls) = afterLoad (load ls.length) fun l => .next (σ (ls ++ [l]))) (k : Nat) :
    microRun (k + n) (σ []) = afterLoad (collect load 0 n) fun ls => microRun k (σ ls) :=
  microRun_pass load σ hbusy hword hstep n k [] (Nat.zero_add n)

theorem wsum_append_one (xs : List Word) (x : Word) : wsum (xs ++ [x]) = wadd (wsum xs) x := by
  simp [wsum]

theorem bufStore_append_one {width : Nat} (b : Buffer width) (i : Nat) (xs : List (BitVec width))
    (x : BitVec width) : bufStore b i (xs ++ [x]) = bufSet (bufStore b i xs) (i + xs.length) x := by
  induction xs generalizing b i with
  | nil => rfl
  | cons y ys ih =>
    rw [List.cons_append, bufStore, bufStore, ih, List.length_cons, Nat.add_right_comm, Nat.add_assoc]

/-! ### `ENC`, phase by phase -/

/-- `ENC` in phase accumulate, the lanes `ls` added (42_forward_transform.md R141 step 2). -/
def encSumming (s : State) (ls : List EncLane) : State :=
  { s with eng := { s.eng with
      s1 := wsum (ls.map encTerm1)
      s2 := wsum (ls.map encTerm2)
      phase := .accumulate
      index := ls.length } }

/-- `ENC` in phase emit, `ls` its lanes and the words of the lanes `ds` written (R141 step 3). -/
def encEmitting (s : State) (ls ds : List EncLane) : State :=
  { s with
    mem := { s.mem with
      ct := bufStore s.mem.ct 0 (ds.map (encWord (wsum (ls.map encTerm1)) (wsum (ls.map encTerm2)))) }
    eng := { s.eng with
      s1 := wsum (ls.map encTerm1)
      s2 := wsum (ls.map encTerm2)
      phase := .emit
      index := ds.length } }

section
variable {s : State}

theorem seqAccumulate_encSumming {ls : List EncLane} (h : ls.length < (lengthN s).toNat) :
    seqAccumulate .enc (encSumming s ls) =
      afterLoad (loadEncLane s ls.length) fun l => .next (encSumming s (ls ++ [l])) := by
  have hload : loadEncLane (encSumming s ls) (encSumming s ls).eng.index = loadEncLane s ls.length := rfl
  have hlt : (encSumming s ls).eng.index < (lengthN (encSumming s ls)).toNat := h
  simp only [seqAccumulate, if_pos hlt, Instr.decryptPath, hload]
  cases loadEncLane s ls.length with
  | error e => rfl
  | ok l => simp [encSumming, addEncLane, nextIndex, wsum_append_one]

theorem seqAccumulate_encSumming_end {ls : List EncLane} (h : ls.length = (lengthN s).toNat) :
    seqAccumulate .enc (encSumming s ls) = .next (encEmitting s ls []) :=
  if_neg (Nat.not_lt.mpr h.ge)

theorem seqEmit_encEmitting (hcap : (lengthN s).toNat ≤ s.regs.capacity.toNat) (ls : List EncLane)
    {ds : List EncLane} (h : ds.length < (lengthN s).toNat) :
    seqEmit .enc (encEmitting s ls ds) =
      afterLoad (loadEncLane s ds.length) fun l => .next (encEmitting s ls (ds ++ [l])) := by
  have hload : loadEncLane (encEmitting s ls ds) (encEmitting s ls ds).eng.index =
    loadEncLane s ds.length := rfl
  have hlt : (encEmitting s ls ds).eng.index < (lengthN (encEmitting s ls ds)).toNat := h
  have hin : ds.length < s.regs.capacity.toNat := Nat.lt_of_lt_of_le h hcap
  simp only [seqEmit, if_pos hlt, Instr.decryptPath, emitEnc, hload]
  cases loadEncLane s ds.length with
  | error e => rfl
  | ok l => simp [memWriteWord, hin, encEmitting, nextIndex, bufStore_append_one]

theorem seqEmit_encEmitting_end (ls : List EncLane) {ds : List EncLane} (h : ds.length = (lengthN s).toNat) :
    seqEmit .enc (encEmitting s ls ds) = .next (toPhase .finish (encEmitting s ls ds)) :=
  if_neg (Nat.not_lt.mpr h.ge)

end

/-! ### `DEC`, phase by phase -/

/-- `DEC` in phase accumulate, the lanes `ls` added (43_inverse_transform.md R151 step 3). -/
def decSumming (s : State) (ls : List DecLane) : State :=
  { s with eng := {
      s1 := wsum (ls.map decTerm1)
      s2 := wsum (ls.map decTerm2)
      s3 := wsum (ls.map decTerm3)
      s1sq := 0#64
      phase := .accumulate
      index := ls.length } }

/-- `DEC` in phase guard, all its lanes added (R153). -/
def decGuarding (s : State) (ls : List DecLane) : State :=
  { s with eng := { (decSumming s ls).eng with s1sq := divisorOf ls, phase := .guard } }

/-- The bytes of the lanes `ds`, `ls` all lanes of the command (R151 steps 4 and 5). -/
def decBytes (ls : List DecLane) (divisor : divisorOf ls ≠ 0#64) (ds : List DecLane) : List Byte :=
  ds.map (decByte (wsum (ls.map decTerm1)) (wsum (ls.map decTerm2)) (wsum (ls.map decTerm3)) (divisorOf ls)
    divisor)

/-- `DEC` in phase emit, `ls` its lanes and the bytes of the lanes `ds` written. -/
def decEmitting (s : State) (ls : List DecLane) (divisor : divisorOf ls ≠ 0#64) (ds : List DecLane) : State :=
  { s with
    mem := { s.mem with rot := bufStore s.mem.rot 0 (decBytes ls divisor ds) }
    eng := { (decGuarding s ls).eng with phase := .emit, index := ds.length } }

section
variable {s : State}

theorem seqAccumulate_decSumming {ls : List DecLane} (h : ls.length < (lengthN s).toNat) :
    seqAccumulate .dec (decSumming s ls) =
      afterLoad (loadDecLane s ls.length) fun l => .next (decSumming s (ls ++ [l])) := by
  have hload : loadDecLane (decSumming s ls) (decSumming s ls).eng.index = loadDecLane s ls.length := rfl
  have hlt : (decSumming s ls).eng.index < (lengthN (decSumming s ls)).toNat := h
  simp only [seqAccumulate, if_pos hlt, Instr.decryptPath, hload]
  cases loadDecLane s ls.length with
  | error e => rfl
  | ok l => simp [decSumming, addDecLane, nextIndex, wsum_append_one]

theorem seqAccumulate_decSumming_end {ls : List DecLane} (h : ls.length = (lengthN s).toNat) :
    seqAccumulate .dec (decSumming s ls) = .next (decGuarding s ls) :=
  if_neg (Nat.not_lt.mpr h.ge)

theorem seqGuard_decGuarding_zero {ls : List DecLane} (hzero : divisorOf ls = 0#64) :
    seqGuard (decGuarding s ls) = .next (raise .zeroDivisor s) :=
  if_pos hzero

theorem seqGuard_decGuarding {ls : List DecLane} (divisor : divisorOf ls ≠ 0#64) :
    seqGuard (decGuarding s ls) = .next (decEmitting s ls divisor []) :=
  if_neg divisor

theorem seqEmit_decEmitting (hcap : (lengthN s).toNat ≤ s.regs.capacity.toNat) {ls : List DecLane}
    (divisor : divisorOf ls ≠ 0#64) {ds : List DecLane} (h : ds.length < (lengthN s).toNat) :
    seqEmit .dec (decEmitting s ls divisor ds) =
      afterLoad (loadDecLane s ds.length) fun l => .next (decEmitting s ls divisor (ds ++ [l])) := by
  have hload : loadDecLane (decEmitting s ls divisor ds) (decEmitting s ls divisor ds).eng.index =
    loadDecLane s ds.length := rfl
  have hlt : (decEmitting s ls divisor ds).eng.index < (lengthN (decEmitting s ls divisor ds)).toNat := h
  have hin : ds.length < s.regs.capacity.toNat := Nat.lt_of_lt_of_le h hcap
  simp only [seqEmit, if_pos hlt, Instr.decryptPath, emitDec, hload]
  cases loadDecLane s ds.length with
  | error e => rfl
  | ok l => simp [memWriteByte, hin, decEmitting, decBytes, decGuarding, decSumming, divisor, nextIndex,
      bufStore_append_one]

theorem seqEmit_decEmitting_end {ls : List DecLane} (divisor : divisorOf ls ≠ 0#64) {ds : List DecLane}
    (h : ds.length = (lengthN s).toNat) :
    seqEmit .dec (decEmitting s ls divisor ds) = .next (toPhase .finish (decEmitting s ls divisor ds)) :=
  if_neg (Nat.not_lt.mpr h.ge)

end

/-! ### The two transforms, from the end of the gate -/

section
variable {s : State} {i : Instr} (hbusy : busy s = true) (hword : decode (fetch s) = .ok i)
include hbusy hword

theorem microRun_phase {t : State} (h : seqPhase i s = .next t) (k : Nat) :
    microRun (k + 1) s = microRun k t :=
  microRun_succ_next hbusy ((microStep_of_decode_ok hword).trans h) k

theorem microRun_phase_end {t : State} (h : seqPhase i s = .next t) (hend : busy t = false) (k : Nat) :
    microRun (k + 1) s = .next t :=
  microRun_succ_end hbusy ((microStep_of_decode_ok hword).trans h) hend k

theorem microRun_finish (k : Nat) : microRun (k + 1) (toPhase .finish s) = .next (complete s) :=
  microRun_phase_end (s := toPhase .finish s) hbusy hword rfl (busy_complete s) k

end

section
variable {s : State} (hbusy : busy s = true) (hword : decode (fetch s) = .ok .enc)
include hbusy hword

theorem microRun_encSumming (k : Nat) :
    microRun (k + 1 + (lengthN s).toNat) (encSumming s []) =
      afterLoad (loadEncLanes s) fun ls => microRun k (encEmitting s ls []) := by
  rw [microRun_pass_all (loadEncLane s) (encSumming s) (fun _ => hbusy) (fun _ => hword)
    (fun _ => seqAccumulate_encSumming), ← loadEncLanes]
  cases hls : loadEncLanes s with
  | error e => rfl
  | ok ls =>
    obtain ⟨hlen, -⟩ := (loadEncLanes_ok_iff s ls).mp hls
    exact microRun_phase (s := encSumming s ls) hbusy hword (seqAccumulate_encSumming_end hlen) k

theorem microRun_encEmitting (hcap : (lengthN s).toNat ≤ s.regs.capacity.toNat) {ls : List EncLane}
    (hls : loadEncLanes s = .ok ls) (k : Nat) :
    microRun (k + 2 + (lengthN s).toNat) (encEmitting s ls []) =
      .next (complete (storeCt s (forward ls))) := by
  obtain ⟨hlen, -⟩ := (loadEncLanes_ok_iff s ls).mp hls
  rw [microRun_pass_all (loadEncLane s) (encEmitting s ls) (fun _ => hbusy) (fun _ => hword)
    (fun _ => seqEmit_encEmitting hcap ls), ← loadEncLanes, hls]
  calc microRun (k + 2) (encEmitting s ls ls)
      = microRun (k + 1) (toPhase .finish (encEmitting s ls ls)) :=
        microRun_phase (s := encEmitting s ls ls) hbusy hword (seqEmit_encEmitting_end ls hlen) (k + 1)
    _ = .next (complete (storeCt s (forward ls))) :=
        microRun_finish (s := encEmitting s ls ls) hbusy hword k

/-- `ENC` past its checks: two passes, and the words of `Forward` are in `CT`. -/
theorem microRun_enc (hn : lengthN s ≠ 0#32) (hcap : (lengthN s).toNat ≤ s.regs.capacity.toNat) (k : Nat) :
    microRun (k + (2 * (lengthN s).toNat + 4)) (encSumming s []) = execEnc s := by
  have hfuel : k + (2 * (lengthN s).toNat + 4) =
    k + 1 + 2 + (lengthN s).toNat + 1 + (lengthN s).toNat := by omega
  rw [hfuel, microRun_encSumming hbusy hword, execEnc_run hn hcap]
  cases hls : loadEncLanes s with
  | error e => rfl
  | ok ls => exact microRun_encEmitting hbusy hword hcap hls (k + 1)

end

theorem inverse_of_zero {ls : List DecLane} (h : divisorOf ls = 0#64) : inverse ls = none :=
  dif_pos h

theorem inverse_of_ne_zero {ls : List DecLane} (divisor : divisorOf ls ≠ 0#64) :
    inverse ls = some (decBytes ls divisor ls) :=
  dif_neg divisor

section
variable {s : State} (hbusy : busy s = true) (hword : decode (fetch s) = .ok .dec)
include hbusy hword

theorem microRun_decSumming (k : Nat) :
    microRun (k + 1 + (lengthN s).toNat) (decSumming s []) =
      afterLoad (loadDecLanes s) fun ls => microRun k (decGuarding s ls) := by
  rw [microRun_pass_all (loadDecLane s) (decSumming s) (fun _ => hbusy) (fun _ => hword)
    (fun _ => seqAccumulate_decSumming), ← loadDecLanes]
  cases hls : loadDecLanes s with
  | error e => rfl
  | ok ls =>
    obtain ⟨hlen, -⟩ := (loadDecLanes_ok_iff s ls).mp hls
    exact microRun_phase (s := decSumming s ls) hbusy hword (seqAccumulate_decSumming_end hlen) k

theorem microRun_decEmitting (hcap : (lengthN s).toNat ≤ s.regs.capacity.toNat) {ls : List DecLane}
    (hls : loadDecLanes s = .ok ls) (divisor : divisorOf ls ≠ 0#64) (k : Nat) :
    microRun (k + 2 + (lengthN s).toNat) (decEmitting s ls divisor []) =
      .next (complete (storeRot s (decBytes ls divisor ls))) := by
  obtain ⟨hlen, -⟩ := (loadDecLanes_ok_iff s ls).mp hls
  rw [microRun_pass_all (loadDecLane s) (decEmitting s ls divisor) (fun _ => hbusy) (fun _ => hword)
    (fun _ => seqEmit_decEmitting hcap divisor), ← loadDecLanes, hls]
  calc microRun (k + 2) (decEmitting s ls divisor ls)
      = microRun (k + 1) (toPhase .finish (decEmitting s ls divisor ls)) :=
        microRun_phase (s := decEmitting s ls divisor ls) hbusy hword
          (seqEmit_decEmitting_end divisor hlen) (k + 1)
    _ = _ := microRun_finish (s := decEmitting s ls divisor ls) hbusy hword k

theorem microRun_decGuarding (hn : lengthN s ≠ 0#32) (hm : lengthN s = lengthM s)
    (hcap : (lengthN s).toNat ≤ s.regs.capacity.toNat) {ls : List DecLane}
    (hls : loadDecLanes s = .ok ls) (k : Nat) :
    microRun (k + 2 + (lengthN s).toNat + 1) (decGuarding s ls) = execDec s := by
  by_cases hzero : divisorOf ls = 0#64
  · rw [execDec_of_zero_divisor hn hm hcap hls (inverse_of_zero hzero)]
    exact microRun_phase_end (s := decGuarding s ls) hbusy hword (seqGuard_decGuarding_zero hzero)
      (busy_raise _ s) _
  · rw [execDec_of_lanes hn hm hcap hls (inverse_of_ne_zero hzero),
      microRun_phase (s := decGuarding s ls) hbusy hword (seqGuard_decGuarding hzero)]
    exact microRun_decEmitting hbusy hword hcap hls hzero k

/-- `DEC` past its checks: a pass, the guard, and a pass that leaves the bytes of `Inverse` in `ROT`. -/
theorem microRun_dec (hn : lengthN s ≠ 0#32) (hm : lengthN s = lengthM s)
    (hcap : (lengthN s).toNat ≤ s.regs.capacity.toNat) (k : Nat) :
    microRun (k + (2 * (lengthN s).toNat + 4)) (decSumming s []) = execDec s := by
  have hfuel : k + (2 * (lengthN s).toNat + 4) =
    k + 2 + (lengthN s).toNat + 1 + 1 + (lengthN s).toNat := by omega
  rw [hfuel, microRun_decSumming hbusy hword]
  cases hls : loadDecLanes s with
  | error e => simp only [afterLoad_error, execDec_run hn hm hcap, hls]
  | ok ls => exact microRun_decGuarding hbusy hword hn hm hcap hls k

end

/-! ### The gate, and the whole command -/

section
variable {s : State} {i : Instr}

theorem seqGate_failed {e : EngineError} (hgate : gatePath i s = some e) :
    seqGate i s = .next (raise e s) := by
  simp only [seqGate, hgate]

theorem seqGate_exceeded {e : EngineError} (hgate : gatePath i s = none) (hruns : i.runsTransform = true)
    (hcap : capacityCheck s = some e) : seqGate i s = .next (raise e s) := by
  simp only [seqGate, hgate, hruns, hcap, if_true]

theorem seqGate_gateOnly (hgate : gatePath i s = none) (hruns : i.runsTransform = false) :
    seqGate i s = .next (toPhase .finish s) := by
  simp [seqGate, hgate, hruns]

theorem seqGate_passed (hgate : gatePath i s = none) (hruns : i.runsTransform = true)
    (hcap : capacityCheck s = none) :
    seqGate i s = .next (beginPass .accumulate (clearAccumulators i s)) := by
  simp only [seqGate, hgate, hruns, hcap, if_true]

theorem exec_failed {e : EngineError} (hgate : gatePath i s = some e) : exec i s = .next (raise e s) := by
  cases i with
  | venc => exact execVenc_failed hgate
  | vdec => exact execVdec_failed hgate
  | enc => exact execEnc_failed hgate
  | dec => exact execDec_failed hgate

theorem exec_exceeded {e : EngineError} (hgate : gatePath i s = none) (hruns : i.runsTransform = true)
    (hcap : capacityCheck s = some e) : exec i s = .next (raise e s) := by
  cases i with
  | venc | vdec => cases hruns
  | enc => exact execEnc_exceeded hgate hcap
  | dec => exact execDec_exceeded hgate hcap

theorem exec_gateOnly (hgate : gatePath i s = none) (hruns : i.runsTransform = false) :
    exec i s = .next (complete s) := by
  cases i with
  | venc => exact execVenc_passed hgate
  | vdec => exact execVdec_passed hgate
  | enc | dec => cases hruns

variable (hbusy : busy s = true) (hword : decode (fetch s) = .ok i)
include hbusy hword

theorem microRun_transform (hgate : gatePath i s = none) (hruns : i.runsTransform = true)
    (hcap : capacityCheck s = none) (k : Nat) :
    microRun (k + (2 * (lengthN s).toNat + 4)) (beginPass .accumulate (clearAccumulators i (toPhase .gate s))) =
      exec i s := by
  have hle := capacityCheck_eq_none_iff.mp hcap
  cases i with
  | venc | vdec => cases hruns
  | enc => exact microRun_enc hbusy hword (gateEnc_eq_none_iff.mp hgate) hle k
  | dec =>
    obtain ⟨hn, hm⟩ := gateDec_eq_none_iff.mp hgate
    exact microRun_dec hbusy hword hn hm hle k

/-- From the gate on the sequencer does what `exec` does, whatever the command. -/
theorem microRun_gate (k : Nat) :
    microRun (k + (2 * (lengthN s).toNat + 4) + 1) (toPhase .gate s) = exec i s := by
  cases hgate : gatePath i s with
  | some e =>
    rw [exec_failed hgate]
    exact microRun_phase_end (s := toPhase .gate s) hbusy hword (seqGate_failed hgate) (busy_raise e s) _
  | none =>
    cases hruns : i.runsTransform with
    | false =>
      rw [exec_gateOnly hgate hruns,
        microRun_phase (s := toPhase .gate s) hbusy hword (seqGate_gateOnly hgate hruns)]
      exact microRun_finish (s := toPhase .gate s) hbusy hword _
    | true =>
      cases hcap : capacityCheck s with
      | some e =>
        rw [exec_exceeded hgate hruns hcap]
        exact microRun_phase_end (s := toPhase .gate s) hbusy hword (seqGate_exceeded hgate hruns hcap)
          (busy_raise e s) _
      | none =>
        rw [microRun_phase (s := toPhase .gate s) hbusy hword (seqGate_passed hgate hruns hcap)]
        exact microRun_transform hbusy hword hgate hruns hcap k

end

/-- Settles O33: an illegal word leaves the decode phase by `raise`; a legal one goes through the gate and its
passes as `exec` does. -/
theorem sequencerRefinesTheAtomicStep : Obligations.SequencerRefinesTheAtomicStep := by
  intro s k hbusy hphase hfuel
  obtain ⟨c, rfl⟩ := Nat.exists_eq_add_of_le' hfuel
  rw [engineStep, if_pos hbusy]
  cases hword : decode (fetch s) with
  | error e =>
    rw [runLatched, hword]
    exact microRun_succ_end hbusy (microStep_of_decode_error hword) (busy_raise _ s) _
  | ok i =>
    have hdecode : seqPhase i s = .next (toPhase .gate s) := by rw [seqPhase, hphase]
    rw [Scope.runLatched_of_decode_ok hword]
    exact (microRun_phase hbusy hword hdecode _).trans (microRun_gate hbusy hword c)

end Sys2Proof.Proofs.Sequencer

/-! SUPPORT. What a command depends on and what it may write, and the host's own step
(20_memory.md R51, R59 to R61). -/

namespace Sys2Proof.Proofs.CommandFrame

open Sys2Proof Sys2Proof.Machine
open Sys2Proof.Proofs.BlockEffects Sys2Proof.Proofs.Results Sys2Proof.Proofs.Sequencer

/-! ### A command as its checks and its body -/

/-- The error a command's checks end it with, if any: the gate's, and before a transform the capacity's
(60_exceptions.md R177). -/
def checkError (i : Instr) (s : State) : Option EngineError :=
  (gatePath i s).or (if i.runsTransform then capacityCheck s else none)

/-- What `DEC` does with the bytes of `Inverse` (43_inverse_transform.md R152). -/
def finishDec (s : State) : Option (List Byte) → Host.Outcome State Fault Refusal
  | none => .next (raise .zeroDivisor s)
  | some bs => .next (complete (storeRot s bs))

/-- What a command does past its checks. -/
def execBody (s : State) : Instr → Host.Outcome State Fault Refusal
  | .venc | .vdec => .next (complete s)
  | .enc => afterLoad (loadEncLanes s) fun ls => .next (complete (storeCt s (forward ls)))
  | .dec => afterLoad (loadDecLanes s) fun ls => finishDec s (inverse ls)

theorem exec_of_checkError {i : Instr} {s : State} {e : EngineError} (h : checkError i s = some e) :
    exec i s = .next (raise e s) := by
  obtain hgate | ⟨hgate, hcap⟩ := Option.or_eq_some_iff.mp h
  · exact exec_failed hgate
  · obtain ⟨hruns, hcap⟩ := Option.ite_none_right_eq_some.mp hcap
    exact exec_exceeded hgate hruns hcap

theorem length_le_of_checked {i : Instr} {s : State} (h : checkError i s = none)
    (hruns : i.runsTransform = true) : (lengthN s).toNat ≤ s.regs.capacity.toNat := by
  obtain ⟨-, hcap⟩ := Option.or_eq_none_iff.mp h
  exact capacityCheck_eq_none_iff.mp ((if_pos hruns).symm.trans hcap)

theorem exec_of_checked {i : Instr} {s : State} (h : checkError i s = none) : exec i s = execBody s i := by
  have hcap := length_le_of_checked h
  obtain ⟨hgate, -⟩ := Option.or_eq_none_iff.mp h
  cases i with
  | venc | vdec => exact exec_gateOnly hgate rfl
  | enc =>
    refine (execEnc_run (gateEnc_eq_none_iff.mp hgate) (hcap rfl)).trans ?_
    rw [execBody]
    cases loadEncLanes s <;> rfl
  | dec =>
    obtain ⟨hn, hm⟩ := gateDec_eq_none_iff.mp hgate
    refine (execDec_run hn hm (hcap rfl)).trans ?_
    rw [execBody]
    cases loadDecLanes s with
    | error => rfl
    | ok ls => simp only [afterLoad_ok]; cases inverse ls <;> rfl

/-! ### No access of the engine is out of range -/

/-- The outcome is a next state or a refusal. -/
def NoFault (o : Host.Outcome State Fault Refusal) : Prop :=
  ∀ f, o ≠ .fault f

theorem noFault_next (t : State) : NoFault (.next t) := nofun

theorem noFault_finishDec (s : State) (bs : Option (List Byte)) : NoFault (finishDec s bs) := by
  cases bs <;> exact noFault_next _

/-- A load of lanes whose every access can only be refused does not fault. -/
theorem noFault_afterLoad_collect {α : Type} {load : Nat → Except Stop α} {n : Nat}
    (hload : ∀ j e, j < n → load j = .error e → ∃ r, e = .refused r)
    {f : List α → Host.Outcome State Fault Refusal} (hf : ∀ xs, NoFault (f xs)) :
    NoFault (afterLoad (collect load 0 n) f) := by
  cases hls : collect load 0 n with
  | ok xs => exact hf xs
  | error e =>
    obtain ⟨j, hj, he⟩ := collect_error load 0 n e hls
    rw [Nat.zero_add] at he
    obtain ⟨r, rfl⟩ := hload j e hj he
    exact nofun

theorem loadEncLane_error_refused {s : State} {j : Nat} {e : Stop} (hj : j < s.regs.capacity.toNat)
    (h : loadEncLane s j = .error e) : ∃ r, e = .refused r := by
  obtain ⟨sp, he, -⟩ := loadEncLane_error s j e hj h
  exact ⟨_, he⟩

theorem loadDecLane_error_refused {s : State} {j : Nat} {e : Stop} (hj : j < s.regs.capacity.toNat)
    (h : loadDecLane s j = .error e) : ∃ r, e = .refused r := by
  obtain ⟨he, -⟩ | ⟨sp, -, he, -⟩ := loadDecLane_error s j e hj h <;> exact ⟨_, he⟩

/-- The indices of a pass are below n, and a checked n is at most NMAX (20_memory.md R59). -/
theorem noFault_exec (i : Instr) (s : State) : NoFault (exec i s) := by
  cases h : checkError i s with
  | some e => rw [exec_of_checkError h]; exact noFault_next _
  | none =>
    have hcap := length_le_of_checked h
    rw [exec_of_checked h]
    cases i with
    | venc | vdec => exact noFault_next _
    | enc =>
      exact noFault_afterLoad_collect
        (fun j e hj => loadEncLane_error_refused (hj.trans_le (hcap rfl))) fun _ => noFault_next _
    | dec =>
      exact noFault_afterLoad_collect
        (fun j e hj => loadDecLane_error_refused (hj.trans_le (hcap rfl))) fun _ => noFault_finishDec s _

theorem noFault_runLatched (s : State) : NoFault (runLatched s) := by
  unfold runLatched
  split
  · exact noFault_exec _ s
  · exact noFault_next _

/-- Settles O8: of all moves only a running command touches an element as the engine. -/
theorem noStepFaults : Obligations.NoStepFaults := by
  intro s
  obtain ⟨-, -, hstep⟩ | ⟨-, -, hstep⟩ | ⟨-, hstep⟩ | ⟨-, hstep⟩ := step_cases s <;> rw [hstep]
  · exact noFault_runLatched _
  · exact noFault_next _
  · exact noFault_next _
  · exact noFault_next _

/-! ### What a command writes -/

theorem bufGet_bufStore_above {width : Nat} (b : Buffer width) {j : Nat} {xs : List (BitVec width)}
    (h : xs.length ≤ j) : bufGet (bufStore b 0 xs) j = bufGet b j := by
  rw [bufGet_bufStore_zero, if_neg (Nat.not_lt.mpr h)]

/-- Settles O29: of the four ends of a command two write nothing, and the output vectors of the others have n
elements. -/
theorem commandsWriteOnlyTheirOutput : Obligations.CommandsWriteOnlyTheirOutput := by
  intro i s t h
  obtain ⟨e, rfl⟩ | rfl | ⟨rfl, ls, hls, rfl⟩ | ⟨rfl, ls, bs, hls, hbs, rfl⟩ := exec_cases h
  · exact ⟨rfl, rfl, fun _ => rfl, fun _ => rfl, fun _ _ => ⟨rfl, rfl⟩, rfl, rfl, rfl, rfl, rfl, .inr rfl⟩
  · exact ⟨rfl, rfl, fun _ => rfl, fun _ => rfl, fun _ _ => ⟨rfl, rfl⟩, rfl, rfl, rfl, rfl, rfl, .inl rfl⟩
  · obtain ⟨hlen, -⟩ := (loadEncLanes_ok_iff s ls).mp hls
    have hn : (forward ls).length = s.regs.dataLen.toNat := (forward_length ls).trans hlen
    exact ⟨rfl, rfl, fun hne => absurd rfl hne, fun _ => rfl,
      fun j hj => ⟨bufGet_bufStore_above _ (hn.trans_le hj), rfl⟩, rfl, rfl, rfl, rfl, rfl, .inl rfl⟩
  · obtain ⟨hlen, -⟩ := (loadDecLanes_ok_iff s ls).mp hls
    have hn : bs.length = s.regs.dataLen.toNat := (inverse_length ls bs hbs).trans hlen
    exact ⟨rfl, rfl, fun _ => rfl, fun hne => absurd rfl hne,
      fun j hj => ⟨rfl, bufGet_bufStore_above _ (hn.trans_le hj)⟩, rfl, rfl, rfl, rfl, rfl, .inl rfl⟩

/-! ### A command and the host -/

/-- The state with another host. -/
def withHost (a : HostAgent) (s : State) : State :=
  { s with host := a }

theorem eq_withHost_of_sameBlock {s t : State} (h : SameBlock s t) : t = withHost t.host s := by
  obtain ⟨hregs, hmem, heng, hdraws⟩ := h
  rw [withHost, ← hregs, ← hmem, ← heng, ← hdraws]

/-- A function of the next state, where there is one. -/
def mapNext (g : State → State) : Host.Outcome State Fault Refusal → Host.Outcome State Fault Refusal
  | .next t => .next (g t)
  | .fault f => .fault f
  | .refused r => .refused r

theorem mapNext_afterLoad {α : Type} (g : State → State) (x : Except Stop α)
    (f : α → Host.Outcome State Fault Refusal) :
    mapNext g (afterLoad x f) = afterLoad x fun a => mapNext g (f a) := by
  cases x with
  | ok a => rfl
  | error e => cases e <;> rfl

theorem finishDec_withHost (a : HostAgent) (s : State) (bs : Option (List Byte)) :
    finishDec (withHost a s) bs = mapNext (withHost a) (finishDec s bs) := by
  cases bs <;> rfl

theorem execBody_withHost (a : HostAgent) (s : State) (i : Instr) :
    execBody (withHost a s) i = mapNext (withHost a) (execBody s i) := by
  cases i with
  | venc | vdec => rfl
  | enc =>
    rw [execBody, execBody, mapNext_afterLoad]
    rfl
  | dec =>
    simp only [execBody, finishDec_withHost, mapNext_afterLoad]
    rfl

/-- A command neither reads nor writes what belongs to the host. -/
theorem exec_withHost (a : HostAgent) (s : State) (i : Instr) :
    exec i (withHost a s) = mapNext (withHost a) (exec i s) := by
  cases h : checkError i s with
  | some e =>
    rw [exec_of_checkError h]
    exact exec_of_checkError (s := withHost a s) h
  | none =>
    rw [exec_of_checked h, ← execBody_withHost]
    exact exec_of_checked (s := withHost a s) h

theorem runLatched_withHost (a : HostAgent) (s : State) :
    runLatched (withHost a s) = mapNext (withHost a) (runLatched s) := by
  have hfetch : fetch (withHost a s) = fetch s := rfl
  rw [runLatched, runLatched, hfetch]
  cases decode (fetch s) with
  | ok i => exact exec_withHost a s i
  | error e => rfl

/-- Settles O41: while `BUSY` the host's moves change the host alone, and the command ends alike for every host. -/
theorem everyScheduleGivesTheSynchronousResult : Obligations.EveryScheduleGivesTheSynchronousResult := by
  intro s t k hbusy h
  have hsame := hostTurn_iterate_sameBlock_of_busy hbusy k
  rw [engineStep, if_pos hbusy] at h
  refine ⟨withHost (hostTurn^[k] s).host t, ?_, rfl⟩
  rw [engineStep, if_pos (hsame.busy.trans hbusy), eq_withHost_of_sameBlock hsame, runLatched_withHost, h]
  rfl

/-! ### The host's own step -/

theorem step_of_host {s : State} (hturn : nextTurn s = .host) : step s = .next (hostTurn (dropTurn s)) := by
  rw [step, hturn]

/-- Settles O47: the schedule's entry is used first and does not belong to the script. -/
theorem hostStepPerformsOneTransaction : Obligations.HostStepPerformsOneTransaction := by
  intro s hturn
  rw [step_of_host hturn]
  refine ⟨rfl, fun hscript => ?_, fun x e rest hscript => ?_⟩
  · rw [hostTurn_nil (s := dropTurn s) hscript]
  · rw [hostTurn_tx (s := dropTurn s) hscript]
    rfl

end Sys2Proof.Proofs.CommandFrame

/-! SUPPORT. The host port: which transactions are accepted, what an accepted read returns and what an accepted
write leaves (20_memory.md R50 to R57). -/

namespace Sys2Proof.Proofs.HostPort

open Sys2Proof Sys2Proof.Machine
open Sys2Proof.Proofs.BlockEffects

/-! ### Which transactions are accepted -/

theorem exists_space_of_lt {n : Nat} (h : n < 5) : ∃ sp : Space, n = sp.number := by
  match n, h with
  | 0, _ => exact ⟨.reg, rfl⟩
  | 1, _ => exact ⟨.rot, rfl⟩
  | 2, _ => exact ⟨.iv, rfl⟩
  | 3, _ => exact ⟨.dk, rfl⟩
  | 4, _ => exact ⟨.ct, rfl⟩

theorem number_lt (sp : Space) : sp.number < 5 := by
  cases sp <;> decide

theorem number_pos_iff {sp : Space} : 1 ≤ sp.number ↔ sp ≠ .reg := by
  cases sp <;> decide

/-- `REG` holds nine registers (10_state.md R31). -/
theorem indexExists_reg_iff {s : State} {k : Nat} : indexExists s .reg k = true ↔ k < 9 := by
  constructor
  · intro h
    obtain ⟨r, hr⟩ := Option.isSome_iff_exists.mp h
    rw [index_of_regAt hr]
    cases r <;> decide
  · intro h
    rw [indexExists]
    interval_cases k <;> rfl

theorem indexExists_buffer_iff {s : State} {sp : Space} {k : Nat} (hsp : sp ≠ .reg) :
    indexExists s sp k = true ↔ k < s.regs.capacity.toNat := by
  cases sp with
  | reg => exact absurd rfl hsp
  | rot | iv | dk | ct => exact decide_eq_true_iff

/-- The host may write `CMD`, `DATA_LEN` and `IV_LEN` (20_memory.md R54 case 3). -/
theorem mayWrite_reg_iff {k : Nat} : mayWrite .reg k = true ↔ k = 0 ∨ k = 2 ∨ k = 3 := by
  constructor
  · intro h
    rw [mayWrite] at h
    split at h
    · rename_i r hr
      rw [index_of_regAt hr]
      cases r with
      | cmd | dataLen | ivLen => decide
      | status | errCode | errBuf | errIvLen | errDataLen | capacity => cases h
    · cases h
  · rintro (rfl | rfl | rfl) <;> rfl

theorem mayWrite_buffer {sp : Space} (hsp : sp ≠ .reg) (k : Nat) : mayWrite sp k = true := by
  cases sp with
  | reg => exact absurd rfl hsp
  | rot | iv | dk | ct => rfl

/-- Acceptance in a space that is there: `portRefusal_none_iff` with the space named. -/
theorem portRefusal_none_iff_of_space {s : State} {x : Transaction} {sp : Space} (h : x.space = sp.number) :
    portRefusal s x = none ↔
      indexExists s sp x.index.toNat = true ∧ (x.isWrite = true → mayWrite sp x.index.toNat = true) ∧
        (busy s = true → x = .hostRead 0 1#32) := by
  rw [portRefusal_none_iff, h, spaceOfNumber_number]
  simp [statusRead]

theorem perform_err_iff {s : State} {x : Transaction} : (perform s x).2 = .err ↔ portRefusal s x ≠ none := by
  cases h : portRefusal s x with
  | some c => simp [perform_refused h]
  | none =>
    obtain ⟨sp, hsp, -⟩ := (portRefusal_none_iff s x).mp h
    cases x with
    | hostRead n i => simp [perform_read h hsp]
    | hostWrite n i d => simp [perform_write h hsp]

theorem portRefusal_eq_none_of_ne_err {s : State} {x : Transaction} (h : (perform s x).2 ≠ .err) :
    portRefusal s x = none :=
  not_not.mp (mt perform_err_iff.mpr h)

/-- Settles O42: the space is none of the five, is `REG`, or is a buffer. -/
theorem portRefusesExactlyTheListedCases : Obligations.PortRefusesExactlyTheListedCases := by
  intro s x
  rw [perform_err_iff]
  constructor
  · by_cases hspace : x.space < 5
    · obtain ⟨sp, hsp⟩ := exists_space_of_lt hspace
      rw [ne_eq, portRefusal_none_iff_of_space hsp]
      by_cases hreg : sp = .reg
      · subst hreg
        rw [indexExists_reg_iff, mayWrite_reg_iff]
        have hzero : x.space = 0 := hsp
        simp only [not_and_or, Classical.not_imp, ne_eq, hzero]
        grind
      · have hpos := number_pos_iff.mpr hreg
        rw [indexExists_buffer_iff hreg]
        simp only [mayWrite_buffer hreg, not_and_or, Classical.not_imp, ne_eq]
        grind
    · refine iff_of_true (fun h => ?_) (.inl (Nat.le_of_not_lt hspace))
      obtain ⟨sp, hsp, -⟩ := (portRefusal_none_iff s x).mp h
      exact hspace (number_of_spaceOfNumber hsp ▸ number_lt sp)
  · intro h
    obtain ⟨c, hc⟩ := Option.ne_none_iff_exists'.mp h
    rw [perform_refused hc]

/-! ### Accepted reads -/

theorem accepted_read {s : State} {n : Nat} {i : BitVec 32} (h : (perform s (.hostRead n i)).2 ≠ .err) :
    ∃ sp : Space, n = sp.number ∧ perform s (.hostRead n i) = (s, .okData (readData s sp i.toNat)) := by
  have haccept := portRefusal_eq_none_of_ne_err h
  obtain ⟨sp, hsp, -⟩ := (portRefusal_none_iff s _).mp haccept
  exact ⟨sp, number_of_spaceOfNumber hsp, perform_read haccept hsp⟩

theorem zext64_toNat {width : Nat} (h : width ≤ 64) (v : BitVec width) : (zext64 v).toNat = v.toNat :=
  BitVec.toNat_setWidth_of_le h

/-- Settles O43, by the five spaces. -/
theorem hostReadReturnsTheElement : Obligations.HostReadReturnsTheElement := by
  intro s n i h
  obtain ⟨sp, rfl, hread⟩ := accepted_read h
  refine ⟨_, hread, ?_⟩
  cases sp with
  | rot => exact ⟨fun _ b hb => by simp only [readData, hb]; rfl, nofun, nofun, nofun, nofun⟩
  | iv => exact ⟨nofun, fun _ b hb => by simp only [readData, hb]; rfl, nofun, nofun, nofun⟩
  | dk => exact ⟨nofun, nofun, fun _ b hb => by simp only [readData, hb]; rfl, nofun, nofun⟩
  | ct => exact ⟨nofun, nofun, nofun, fun _ w hw => by simp only [readData, hw]; rfl, nofun⟩
  | reg =>
    refine ⟨nofun, nofun, nofun, nofun, fun _ => ?_⟩
    refine ⟨?_, ?_, ?_, ?_, ?_, ?_, ?_, ?_, ?_⟩ <;> rintro rfl <;> exact zext64_toNat (by decide) _

/-! ### Accepted writes -/

theorem accepted_write {s : State} {n : Nat} {i : BitVec 32} {d : Word}
    (h : (perform s (.hostWrite n i d)).2 ≠ .err) :
    ∃ sp : Space, n = sp.number ∧ mayWrite sp i.toNat = true ∧
      perform s (.hostWrite n i d) = (writeData s sp i.toNat d, .ok) := by
  have haccept := portRefusal_eq_none_of_ne_err h
  obtain ⟨sp, hsp, -, hwrite, -⟩ := (portRefusal_none_iff s _).mp haccept
  exact ⟨sp, number_of_spaceOfNumber hsp, hwrite rfl, perform_write haccept hsp⟩

theorem trunc8_eq_setWidth (d : Word) : trunc8 d = d.setWidth 8 :=
  (BitVec.setWidth_eq_extractLsb' (by decide)).symm

theorem extractLsb'_eq_setWidth (d : Word) : d.extractLsb' 0 32 = d.setWidth 32 :=
  (BitVec.setWidth_eq_extractLsb' (by decide)).symm

/-- The writable registers are three, and each takes the data's low 32 bits (20_memory.md R53). -/
theorem writeData_reg {k : Nat} (h : mayWrite .reg k = true) (s : State) (d : Word) :
    (k = 0 ∧ writeData s .reg k d = startCommand (d.setWidth 32) s) ∨
      (k = 2 ∧ writeData s .reg k d = { s with regs := { s.regs with dataLen := d.setWidth 32 } }) ∨
      (k = 3 ∧ writeData s .reg k d = { s with regs := { s.regs with ivLen := d.setWidth 32 } }) := by
  rw [← extractLsb'_eq_setWidth]
  obtain rfl | rfl | rfl := mayWrite_reg_iff.mp h
  · exact .inl ⟨rfl, rfl⟩
  · exact .inr (.inl ⟨rfl, rfl⟩)
  · exact .inr (.inr ⟨rfl, rfl⟩)

/-- Settles O44, by the four buffers and the three writable registers. -/
theorem hostWriteStoresTheData : Obligations.HostWriteStoresTheData := by
  intro s n i d h
  obtain ⟨sp, rfl, hmay, hwrite⟩ := accepted_write h
  refine ⟨_, hwrite, ?_⟩
  rw [← trunc8_eq_setWidth]
  cases sp with
  | rot => exact ⟨rfl, rfl, fun _ => rfl, fun _ => ⟨rfl, rfl⟩, nofun, nofun, nofun, nofun⟩
  | iv => exact ⟨rfl, rfl, fun _ => rfl, nofun, fun _ => ⟨rfl, rfl⟩, nofun, nofun, nofun⟩
  | dk => exact ⟨rfl, rfl, fun _ => rfl, nofun, nofun, fun _ => ⟨rfl, rfl⟩, nofun, nofun⟩
  | ct => exact ⟨rfl, rfl, fun _ => rfl, nofun, nofun, nofun, fun _ => ⟨rfl, rfl⟩, nofun⟩
  | reg =>
    obtain ⟨hi, ht⟩ | ⟨hi, ht⟩ | ⟨hi, ht⟩ := writeData_reg hmay s d <;> rw [ht]
    · obtain rfl : i = 0#32 := BitVec.eq_of_toNat_eq hi
      exact ⟨rfl, rfl, fun hne => absurd rfl hne, nofun, nofun, nofun, nofun,
        fun _ => ⟨rfl, fun _ => rfl, nofun, nofun⟩⟩
    · obtain rfl : i = 2#32 := BitVec.eq_of_toNat_eq hi
      exact ⟨rfl, rfl, fun _ => rfl, nofun, nofun, nofun, nofun,
        fun _ => ⟨rfl, nofun, fun _ => rfl, nofun⟩⟩
    · obtain rfl : i = 3#32 := BitVec.eq_of_toNat_eq hi
      exact ⟨rfl, rfl, fun _ => rfl, nofun, nofun, nofun, nofun,
        fun _ => ⟨rfl, nofun, nofun, fun _ => rfl⟩⟩

/-! ### A read after a write -/

/-- Acceptance is a matter of the registers alone. -/
theorem portRefusal_congr {s t : State} (h : t.regs = s.regs) (x : Transaction) :
    portRefusal t x = portRefusal s x := by
  have hindex : indexExists t = indexExists s := by
    funext sp k
    cases sp <;> simp only [indexExists, h]
  have hbusy : busy t = busy s := by simp only [busy, h]
  rw [portRefusal, portRefusal, hindex, hbusy]

/-- Where a write is accepted, so is a read: the block is not `BUSY`. -/
theorem read_accepted_of_write {s : State} {n : Nat} {i : BitVec 32} {d : Word}
    (h : portRefusal s (.hostWrite n i d) = none) : portRefusal s (.hostRead n i) = none := by
  obtain ⟨sp, hsp, hindex, -, -⟩ := (portRefusal_none_iff s _).mp h
  have hidle := not_busy_of_accepted_write h
  exact (portRefusal_none_iff s _).mpr ⟨sp, hsp, hindex, nofun, fun hbusy => by simp [hidle] at hbusy⟩

/-- A read is answered alike in two states with the same registers that hold the same there. -/
theorem perform_read_congr {s t : State} {n : Nat} {i : BitVec 32} (hregs : t.regs = s.regs)
    (hdata : ∀ sp : Space, n = sp.number → readData t sp i.toNat = readData s sp i.toNat) :
    (perform t (.hostRead n i)).2 = (perform s (.hostRead n i)).2 := by
  have haccept := portRefusal_congr hregs (.hostRead n i)
  cases h : portRefusal s (.hostRead n i) with
  | some c => rw [perform_refused h, perform_refused (haccept.trans h)]
  | none =>
    obtain ⟨sp, hsp, -⟩ := (portRefusal_none_iff s _).mp h
    rw [perform_read h hsp, perform_read (haccept.trans h) hsp, hdata sp (number_of_spaceOfNumber hsp)]

section
variable {sp : Space} (hsp : sp ≠ .reg) (s : State) (k : Nat) (d : Word)
include hsp

theorem writeData_buffer_regs : (writeData s sp k d).regs = s.regs := by
  cases sp with
  | reg => exact absurd rfl hsp
  | rot | iv | dk | ct => rfl

theorem readData_writeData_same :
    readData (writeData s sp k d) sp k = if sp.number = 4 then d else (d.setWidth 8).setWidth 64 := by
  cases sp with
  | reg => exact absurd rfl hsp
  | rot | iv | dk =>
    simp only [readData, writeData, bufGet_bufSet_same, trunc8_eq_setWidth]
    rfl
  | ct =>
    simp only [readData, writeData, bufGet_bufSet_same]
    rfl

/-- A write touches one element of one buffer, and draws no free value. -/
theorem readData_writeData_other {sp' : Space} {k' : Nat} (h : sp' = sp → k' ≠ k) :
    readData (writeData s sp k d) sp' k' = readData s sp' k' := by
  cases sp with
  | reg => exact absurd rfl hsp
  | rot | iv | dk | ct =>
    cases sp' <;> simp [readData, writeData, bufGet_bufSet_other, h, freeByte, freeWord]

end

/-- Settles O45: a buffer write leaves the registers, and with them what is accepted, as they were. -/
theorem readAfterWriteReturnsTheWrite : Obligations.ReadAfterWriteReturnsTheWrite := by
  intro s n i d hlow _ hok t
  have hne : (perform s (.hostWrite n i d)).2 ≠ .err := hok.trans_ne (by decide)
  have haccept := portRefusal_eq_none_of_ne_err hne
  obtain ⟨sp, rfl, -, hwrite⟩ := accepted_write hne
  have hsp : sp ≠ .reg := number_pos_iff.mp hlow
  have ht : t = writeData s sp i.toNat d := congrArg Prod.fst hwrite
  have hregs : t.regs = s.regs := ht ▸ writeData_buffer_regs hsp s i.toNat d
  refine ⟨?_, fun n' i' hother _ => perform_read_congr hregs fun sp' hsp' => ?_⟩
  · rw [perform_read ((portRefusal_congr hregs _).trans (read_accepted_of_write haccept))
      (spaceOfNumber_number sp), ht, readData_writeData_same hsp]
  · rw [ht]
    refine readData_writeData_other hsp s i.toNat d fun hs hi => hother ?_
    rw [hsp', hs, BitVec.eq_of_toNat_eq hi]

end Sys2Proof.Proofs.HostPort

/-! SUPPORT. The decoder against the encoder: the fields of a command word and the opcode map, each read both ways
(30_encoding.md R80, R81, R84). -/

namespace Sys2Proof.Proofs.Encoding

open Sys2Proof
open Sys2Proof.Proofs.Results

/-! ### The fields of a word -/

theorem toWord_ofWord (w : CommandWord) : (Command.ofWord w).toWord = w :=
  BitVec.extractLsb'_append_extractLsb'

theorem ofWord_toWord (c : Command) : Command.ofWord c.toWord = c := by
  rw [Command.ofWord, Command.toWord, BitVec.extractLsb'_append_eq_left, BitVec.extractLsb'_append_eq_right]

theorem ofWord_eq_iff {w : CommandWord} {c : Command} : Command.ofWord w = c ↔ w = c.toWord := by
  constructor
  · rintro rfl
    exact (toWord_ofWord w).symm
  · rintro rfl
    exact ofWord_toWord c

theorem rsv_toNat (w : CommandWord) : (Command.ofWord w).rsv.toNat = w.toNat / 256 := by
  have hw : w.toNat < 2 ^ 32 := w.isLt
  simp only [Command.ofWord, BitVec.extractLsb'_toNat, Nat.shiftRight_eq_div_pow]
  omega

theorem op_toNat (w : CommandWord) : (Command.ofWord w).op.toNat = w.toNat % 256 :=
  BitVec.extractLsb'_toNat 0 8 w

/-! ### The opcode map -/

theorem decodeOpcode_eq_some_iff {op : BitVec 8} {i : Instr} : decodeOpcode op = some i ↔ op = i.opcode := by
  constructor
  · intro h
    unfold decodeOpcode at h
    split_ifs at h <;> cases h <;> assumption
  · rintro rfl
    cases i <;> rfl

/-- The four opcodes are the numbers 0x10 to 0x13. -/
theorem forall_ne_opcode_iff {op : BitVec 8} :
    (∀ i : Instr, op ≠ i.opcode) ↔ op.toNat < 0x10 ∨ 0x13 < op.toNat := by
  constructor
  · intro h
    have hvenc : op ≠ 0x10#8 := h .venc
    have hvdec : op ≠ 0x11#8 := h .vdec
    have henc : op ≠ 0x12#8 := h .enc
    have hdec : op ≠ 0x13#8 := h .dec
    bv_omega
  · rintro h i rfl
    have hrange : 0x10 ≤ i.opcode.toNat ∧ i.opcode.toNat ≤ 0x13 := by cases i <;> decide
    omega

/-! ### The decoder -/

/-- The decoder's two checks: `RSV` is zero, and `OP` is the command's opcode. -/
theorem decode_eq_ok_iff {w : CommandWord} {i : Instr} :
    decode w = .ok i ↔ (Command.ofWord w).rsv = 0#24 ∧ (Command.ofWord w).op = i.opcode := by
  rw [← decodeOpcode_eq_some_iff]
  unfold decode
  by_cases hrsv : (Command.ofWord w).rsv = 0#24
  · cases hop : decodeOpcode (Command.ofWord w).op <;> simp [hrsv, hop]
  · simp [hrsv]

theorem decode_error_iff {w : CommandWord} : (∃ e, decode w = .error e) ↔ ∀ i, decode w ≠ .ok i := by
  cases decode w <;> simp

/-- Settles O2: the decoder's checks compare the word's two fields with the command's, and the fields determine the
word. -/
theorem decodeIsInverseOfEncode : Obligations.DecodeIsInverseOfEncode := by
  intro w i
  calc decode w = .ok i
      ↔ (Command.ofWord w).rsv = 0#24 ∧ (Command.ofWord w).op = i.opcode := decode_eq_ok_iff
    _ ↔ Command.ofWord w = i.toCommand := by rw [Instr.toCommand, Command.mk.injEq]
    _ ↔ w = encode i := ofWord_eq_iff

/-- Settles O3: a rejected word is one that decodes to no command, so it fails one of the two checks. -/
theorem illegalWordsAreRejected : Obligations.IllegalWordsAreRejected := by
  intro w
  have hrsv : (Command.ofWord w).rsv = 0#24 ↔ w.toNat / 256 = 0 := by
    rw [← rsv_toNat, ← BitVec.toNat_inj]
    rfl
  calc (∃ e, decode w = .error e)
      ↔ ∀ i : Instr, ¬((Command.ofWord w).rsv = 0#24 ∧ (Command.ofWord w).op = i.opcode) := by
        simp only [decode_error_iff, ne_eq, decode_eq_ok_iff]
    _ ↔ (Command.ofWord w).rsv ≠ 0#24 ∨ ∀ i : Instr, (Command.ofWord w).op ≠ i.opcode := by
        simp only [not_and_or, forall_or_left, ne_eq]
    _ ↔ w.toNat / 256 ≠ 0 ∨ w.toNat % 256 < 0x10 ∨ 0x13 < w.toNat % 256 := by
        rw [forall_ne_opcode_iff, ne_eq, hrsv, op_toNat]

/-- Settles O1: each of the four words is its command's encoding. -/
theorem decoderReadsTheFourCommandWords : Obligations.DecoderReadsTheFourCommandWords :=
  ⟨decode_encode .venc, decode_encode .vdec, decode_encode .enc, decode_encode .dec⟩

end Sys2Proof.Proofs.Encoding

/-! SUPPORT. The host's script: what each line stands for, and one poll of a `WAIT` (30_encoding.md R86, R87). -/

namespace Sys2Proof.Proofs.HostScript

open Sys2Proof Sys2Proof.Machine
open Sys2Proof.Proofs.BlockEffects

/-! ### One poll -/

theorem perform_statusRead (s : State) : perform s statusRead = (s, .okData (readReg s.regs .status)) :=
  statusCanAlwaysBeRead s

theorem readStatus_busy (s : State) : (readReg s.regs .status).getLsbD 0 = busy s := by
  simp [readReg, zext64, busy]

/-- A `WAIT` ends when its poll finds the block not `BUSY`. -/
theorem endsWait_poll (s : State) : endsWait (.okData (readReg s.regs .status)) = !busy s := by
  rw [endsWait, readStatus_busy]

/-- One move at a `WAIT` reads `STATUS`, and the `WAIT` stays exactly while `BUSY`. -/
theorem hostTurn_poll {s : State} {rest : List HostOp} (h : s.host.script = .wait :: rest) :
    hostTurn s = issue s statusRead none (if busy s then .wait :: rest else rest) := by
  rw [hostTurn_wait h, perform_statusRead, endsWait_poll]
  cases busy s <;> rfl

/-- Settles O48: a poll is a read of `STATUS`, which is always answered and changes nothing. -/
theorem waitPollsUntilNotBusy : Obligations.WaitPollsUntilNotBusy := by
  intro s rest hscript
  rw [hostTurn_poll hscript, issue, perform_statusRead]
  exact ⟨rfl, rfl, rfl⟩

/-! ### The lines of a script -/

/-- The model's space numbers are those of the table (20_memory.md R50). -/
theorem number_eq_scriptSpace (sp : Space) : sp.number = scriptSpace sp := by
  cases sp <;> rfl

/-- The model's register indices are those of the register table (10_state.md R23 to R31). -/
theorem index_eq_scriptIndex (r : RegName) : r.index = scriptIndex r := by
  cases r <;> rfl

/-- A command's mnemonic writes its word of the opcode map to `CMD`. -/
theorem commandTx_eq (i : Instr) : commandTx i = .hostWrite 0 0#32 (scriptWord i) := by
  cases i <;> rfl

theorem writeRegTx_eq (r : RegName) (v : Word) : writeRegTx r v = .hostWrite 0 (scriptIndex r) v := by
  rw [writeRegTx, index_eq_scriptIndex]
  rfl

theorem readRegTx_eq (r : RegName) : readRegTx r = .hostRead 0 (scriptIndex r) := by
  rw [readRegTx, index_eq_scriptIndex]
  rfl

/-- Settles O49: the model's indices and space numbers are the tables'. -/
theorem scriptLinesAreTransactions : Obligations.ScriptLinesAreTransactions := by
  refine ⟨fun r v e => ?_, fun r e => ?_, fun sp j v e => ?_, fun sp j e => ?_, rfl, fun l ls => ?_⟩
  · rw [expandLine, writeRegTx_eq]
  · rw [expandLine, readRegTx_eq]
  · rw [expandLine, number_eq_scriptSpace]
  · rw [expandLine, number_eq_scriptSpace]
  · exact List.flatMap_cons

/-! ### The pseudo-lines -/

/-- The write of the value at position `j` of a vector that is loaded from index `first` on. -/
def loadOp (sp : Space) (first : Nat) (vs : List Word) (j : Nat) : HostOp :=
  .tx (.hostWrite (scriptSpace sp) (BitVec.ofNat 32 (first + j)) (vs.getD j 0#64)) none

theorem loadOp_succ (sp : Space) (first : Nat) (v : Word) (vs : List Word) (j : Nat) :
    loadOp sp first (v :: vs) (j + 1) = loadOp sp (first + 1) vs j := by
  rw [loadOp, loadOp, List.getD_cons_succ, Nat.add_right_comm, Nat.add_assoc]

theorem loadVector_eq_map (sp : Space) (vs : List Word) (first : Nat) :
    loadVector sp first vs = (List.range vs.length).map (loadOp sp first vs) := by
  induction vs generalizing first with
  | nil => rfl
  | cons v vs ih =>
    rw [loadVector, ih, List.length_cons, List.range_succ_eq_map, List.map_cons, List.map_map,
      number_eq_scriptSpace]
    congr 1
    exact List.map_congr_left fun j _ => (loadOp_succ sp first v vs j).symm

/-- Settles O50: each pseudo-line is its transactions, and `LDV` one write per value. -/
theorem pseudoLinesExpand : Obligations.PseudoLinesExpand := by
  refine ⟨fun i => ?_, rfl, fun i => ?_, fun sp vs => ?_, fun n => ?_, fun r v => ?_, fun sp j v => ?_⟩
  · rw [expandLine, commandTx_eq]
  · rw [expandLine, commandTx_eq]
  · rw [expandLine, loadVector_eq_map]
    exact List.map_congr_left fun j _ => by rw [loadOp, Nat.zero_add]
  · rw [expandLine, writeRegTx_eq, writeRegTx_eq]
    rfl
  · rw [expandLine, readRegTx_eq]
  · rw [expandLine, number_eq_scriptSpace]

end Sys2Proof.Proofs.HostScript

/-! SUPPORT. The primitives of 40_arithmetic.md in the library's terms (the two's-complement reading, sign extension,
the truncating division, the list sum), and the arithmetic statements read off them. -/

namespace Sys2Proof.Proofs.Arithmetic

open Sys2Proof Sys2Proof.Machine
open Sys2Proof.Proofs.HostPort

/-! ### The reinterpretations of a byte (R101) -/

theorem asSigned_eq_toInt (b : Byte) : asSigned b = b.toInt := by
  have hb := b.isLt
  rw [asSigned, BitVec.toInt_eq_toNat_cond]
  split <;> split <;> omega

theorem asUnsigned_toNat {v : Int} (hlow : -128 ≤ v) (hhigh : v ≤ 127) :
    ((asUnsigned v).toNat : Int) = if 0 ≤ v then v else v + 256 := by
  unfold asUnsigned
  split <;> rw [BitVec.toNat_ofNat] <;> omega

theorem asUnsigned_eq_ofInt {v : Int} (hlow : -128 ≤ v) (hhigh : v ≤ 127) :
    asUnsigned v = BitVec.ofInt 8 v := by
  have h := asUnsigned_toNat hlow hhigh
  apply BitVec.eq_of_toNat_eq
  rw [BitVec.toNat_ofInt]
  split at h <;> omega

theorem asUnsigned_asSigned (b : Byte) : asUnsigned (asSigned b) = b := by
  rw [asSigned_eq_toInt, asUnsigned_eq_ofInt b.le_toInt (Int.le_of_lt_add_one b.toInt_lt), BitVec.ofInt_toInt]

theorem asSigned_asUnsigned {v : Int} (hlow : -128 ≤ v) (hhigh : v ≤ 127) : asSigned (asUnsigned v) = v := by
  rw [asUnsigned_eq_ofInt hlow hhigh, asSigned_eq_toInt,
    BitVec.toInt_ofInt_eq_self (by decide) hlow (Int.lt_add_one_of_le hhigh)]

/-- Settles O52. -/
theorem byteReinterpretationsAreInverse : Obligations.ByteReinterpretationsAreInverse :=
  ⟨fun b => ⟨asSigned_eq_toInt b, rfl, asUnsigned_asSigned b⟩,
    fun _ hlow hhigh => ⟨asSigned_asUnsigned hlow hhigh, asUnsigned_toNat hlow hhigh⟩⟩

/-! ### The low byte (R110) -/

theorem trunc8_toNat (a : Word) : (trunc8 a).toNat = a.toNat % 256 := by
  rw [trunc8_eq_setWidth, BitVec.toNat_setWidth]

theorem trunc8_word (z : Int) : trunc8 (word z) = BitVec.ofInt 8 z := by
  apply BitVec.eq_of_toNat_eq
  rw [trunc8_toNat, word, BitVec.toNat_ofInt, BitVec.toNat_ofInt]
  omega

theorem ofInt_byte_emod (z : Int) : BitVec.ofInt 8 (z % 256) = BitVec.ofInt 8 z := by
  apply BitVec.eq_of_toNat_eq
  rw [BitVec.toNat_ofInt, BitVec.toNat_ofInt]
  omega

theorem trunc8_eq_asUnsigned {a : Word} (hlow : -128 ≤ a.toInt) (hhigh : a.toInt ≤ 127) :
    trunc8 a = asUnsigned a.toInt := by
  rw [asUnsigned_eq_ofInt hlow hhigh, ← trunc8_word, word_toInt]

/-- Settles O57. -/
theorem truncationKeepsTheLowByte : Obligations.TruncationKeepsTheLowByte :=
  fun a => ⟨trunc8_toNat a, rfl, trunc8_eq_asUnsigned⟩

/-! ### Sign extension (R102) -/

theorem sext64_eq_signExtend (b : Byte) : sext64 b = b.signExtend 64 := by
  rw [sext64, asSigned_eq_toInt, word, BitVec.signExtend]

theorem sext64_toInt (b : Byte) : (sext64 b).toInt = asSigned b := by
  rw [sext64_eq_signExtend, BitVec.toInt_signExtend_of_le (by decide), asSigned_eq_toInt]

theorem trunc8_sext64 (b : Byte) : trunc8 (sext64 b) = b := by
  rw [sext64, trunc8_word, asSigned_eq_toInt, BitVec.ofInt_toInt]

theorem sext64_high (b : Byte) {j : Nat} (hlow : 8 ≤ j) (hhigh : j < 64) :
    (sext64 b).getLsbD j = b.getLsbD 7 := by
  rw [sext64_eq_signExtend, BitVec.getLsbD_signExtend, if_neg (Nat.not_lt.mpr hlow), decide_eq_true hhigh,
    Bool.true_and, BitVec.msb_eq_getLsbD_last]

theorem sext64_asUnsigned {v : Int} (hlow : -128 ≤ v) (hhigh : v ≤ 127) : sext64 (asUnsigned v) = word v := by
  rw [sext64, asSigned_asUnsigned hlow hhigh]

/-- Settles O53; the widened elements of a lane are `sext64` of its bytes by definition. -/
theorem signExtensionKeepsTheValue : Obligations.SignExtensionKeepsTheValue :=
  fun b => ⟨sext64_toInt b, trunc8_sext64 b, fun _ hlow hhigh => sext64_high b hlow hhigh,
    fun _ h => congrArg sext64 h, fun _ h => congrArg sext64 h, fun _ h => congrArg sext64 h,
    fun _ h => congrArg sext64 h, fun _ h => congrArg sext64 h⟩

/-! ### The wrapping operations (R103 to R106) -/

theorem word_toNat (a : Word) : word a.toNat = a := by
  rw [word, BitVec.ofInt_natCast, BitVec.ofNat_toNat, BitVec.setWidth_eq]

theorem dbl_eq_wmul_two (a : Word) : dbl a = wmul a (word 2) := by
  rw [dbl_eq_add, wmul_eq_mul, ← mul_two]
  rfl

theorem dbl_toNat (a : Word) : (dbl a).toNat = 2 * a.toNat % 2 ^ 64 := by
  rw [dbl_eq_add, BitVec.toNat_add, Nat.two_mul]

/-- Settles O54: the signed readings are the definitions, and the unsigned ones follow from the ring law. -/
theorem ringOperationsWrap : Obligations.RingOperationsWrap := by
  intro a b
  refine ⟨?_, rfl, ?_, rfl, ?_, rfl, dbl_eq_wmul_two a, ?_, dbl_toNat a⟩
  · rw [word_add, word_toNat, word_toNat, wadd_eq_add]
  · rw [word_sub, word_toNat, word_toNat, wsub_eq_sub]
  · rw [word_mul, word_toNat, word_toNat, wmul_eq_mul]
  · rw [dbl_eq_add, wadd_eq_add]

/-! ### The division (R107, R109) -/

theorem sdiv_eq_sdiv (a b : Word) (h : b ≠ 0#64) : sdiv a b h = a.sdiv b := by
  apply BitVec.eq_of_toInt_eq
  rw [sdiv, word, BitVec.toInt_ofInt, BitVec.toInt_sdiv]

theorem tdiv_eq_sign_mul (x y : Int) : Int.tdiv x y = x.sign * y.sign * ((x.natAbs / y.natAbs : Nat) : Int) := by
  rw [← Int.sign_mul_natAbs (Int.tdiv x y), Int.sign_tdiv, Int.natAbs_tdiv]
  split
  case isTrue hlt => rw [Nat.div_eq_of_lt hlt, Int.zero_mul, Int.natCast_zero, Int.mul_zero]
  case isFalse => rfl

/-- Settles O55: off the excluded pair the quotient is a signed word, so nothing wraps. -/
theorem divisionTruncatesTowardZero : Obligations.DivisionTruncatesTowardZero := by
  intro a b h hpair
  have hfits : a ≠ BitVec.intMin 64 ∨ b ≠ -1#64 := by
    by_contra! hmin
    obtain ⟨rfl, rfl⟩ := hmin
    exact hpair ⟨rfl, rfl⟩
  rw [sdiv_eq_sdiv, BitVec.toInt_sdiv_of_ne_or_ne a b hfits, tdiv_eq_sign_mul]

/-- No square is minus one: modulo 4 a square is 0 or 1, and minus one is 3. -/
theorem wmul_self_ne_neg_one (a : Word) : wmul a a ≠ word (-1) := by
  intro h
  have hlow : a.setWidth 2 * a.setWidth 2 = 3#2 := by
    rw [← BitVec.setWidth_mul _ _ (by decide), ← wmul_eq_mul, h]
    rfl
  have hsquare : ∀ x : BitVec 2, x * x ≠ 3#2 := by decide
  exact hsquare _ hlow

/-- Settles O56: the divisor of `DEC` is a square. -/
theorem overflowingQuotientIsUnreachable : Obligations.OverflowingQuotientIsUnreachable :=
  ⟨fun h => (sdiv_eq_sdiv _ _ h).trans (by decide), wmul_self_ne_neg_one, fun _ => wmul_self_ne_neg_one _⟩

/-! ### The ring law (R112) -/

theorem toInt_word {z : Int} (hlow : -2 ^ 63 ≤ z) (hhigh : z < 2 ^ 63) : (word z).toInt = z :=
  BitVec.toInt_ofInt_eq_self (by decide) hlow hhigh

theorem sdiv_word {x y : Int} (h : word y ≠ 0#64) (hxlow : -2 ^ 63 ≤ x) (hxhigh : x < 2 ^ 63)
    (hylow : -2 ^ 63 ≤ y) (hyhigh : y < 2 ^ 63) : sdiv (word x) (word y) h = word (Int.tdiv x y) := by
  rw [sdiv, toInt_word hxlow hxhigh, toInt_word hylow hyhigh]

/-- Settles O58. -/
theorem wordIsARingHomomorphism : Obligations.WordIsARingHomomorphism := by
  refine ⟨fun x y => ⟨?_, ?_, ?_, ?_⟩, fun v => sext64_asUnsigned, fun z => ?_, fun x y => sdiv_word⟩
  · rw [wadd_eq_add, word_add]
  · rw [wsub_eq_sub, word_sub]
  · rw [wmul_eq_mul, word_mul]
  · rw [dbl_eq_add, Int.two_mul, word_add]
  · rw [trunc8_word, ofInt_byte_emod]

/-! ### The sum (R113) -/

theorem wsum_eq_sum (xs : List Word) : wsum xs = xs.sum := by
  induction xs with
  | nil => rfl
  | cons x xs ih => rw [wsum_cons, ih, List.sum_cons]

/-- Settles O59: `wadd` is the addition of a commutative monoid, and `wsum` its list sum. -/
theorem sumOrderIsIrrelevant : Obligations.SumOrderIsIrrelevant := by
  refine ⟨fun xs ys hperm => ?_, fun xss => ?_, fun a b c => ⟨?_, ?_, ?_⟩⟩
  · rw [wsum_eq_sum, wsum_eq_sum, hperm.sum_eq]
  · rw [wsum_eq_sum, wsum_eq_sum, List.sum_flatten, List.map_congr_left fun xs _ => wsum_eq_sum xs]
  · simp only [wadd_eq_add, BitVec.add_assoc]
  · rw [wadd_eq_add, wadd_eq_add, BitVec.add_comm]
  · rw [wadd_eq_add, BitVec.add_zero]

end Sys2Proof.Proofs.Arithmetic

/-! SUPPORT. The Validation Gate (41_validation_gate.md R130 to R134): what a host sees of a command's two endings,
and the statements about the gate and the two commands that run it alone. -/

namespace Sys2Proof.Proofs.ValidationGate

open Sys2Proof Sys2Proof.Machine
open Sys2Proof.Proofs.Results

/-! ### The two endings -/

theorem endedInError_raise (e : EngineError) (s : State) :
    endedInError s (raise e s) (errorCode e) (errorBuf e) (errorIvLen e) (errorDataLen e) :=
  ⟨rfl, rfl, rfl⟩

theorem endedInSuccess_complete (s : State) : endedInSuccess s (complete s) :=
  ⟨rfl, rfl⟩

/-! ### The gate as functions -/

theorem len_toNat_eq_zero_iff {n : Len} : n.toNat = 0 ↔ n = 0#32 :=
  BitVec.toNat_inj (y := 0#32)

/-- Settles O11: lengths are equal exactly when their numbers are. -/
theorem gateChecksLengths : Obligations.GateChecksLengths := by
  refine ⟨fun n => ?_, fun n m => ?_⟩
  · simp only [gateEnc, len_toNat_eq_zero_iff]
  · simp only [gateDec, len_toNat_eq_zero_iff, BitVec.toNat_inj, ne_eq, ite_not]

/-! ### The commands that run the gate alone -/

/-- Settles O12: the gate's answer is the command's ending. -/
theorem vencChecksDataLength : Obligations.VencChecksDataLength := by
  refine ⟨decode_encode .venc, fun s => ⟨fun hn => ?_, fun hn => ?_⟩⟩
  · exact ⟨_, execVenc_failed (gateEnc_empty hn), endedInError_raise _ s⟩
  · exact ⟨_, execVenc_passed (gateEnc_eq_none_iff.mpr hn), endedInSuccess_complete s, rfl⟩

/-- Settles O13: the gate's answer is the command's ending, the length tested before the equality. -/
theorem vdecChecksBothLengths : Obligations.VdecChecksBothLengths := by
  refine ⟨decode_encode .vdec, fun s => ⟨fun hn => ?_, fun hn hm => ?_, fun hn hm => ?_⟩⟩
  · exact ⟨_, execVdec_failed (gateDec_empty _ hn), endedInError_raise _ s⟩
  · exact ⟨_, execVdec_failed (gateDec_mismatch hn hm), endedInError_raise _ s⟩
  · exact ⟨_, execVdec_passed (gateDec_eq_none_iff.mpr ⟨hn, hm⟩), endedInSuccess_complete s, rfl⟩

end Sys2Proof.Proofs.ValidationGate

/-! SUPPORT. The forward engine over the integers (42_forward_transform.md R141, R145, R146): the ring law for its sums
and words, the matrix form, and the bounds under which no word wraps. -/

namespace Sys2Proof.Proofs.ForwardTransform

open Sys2Proof Sys2Proof.Machine
open Sys2Proof.Proofs.Arithmetic

/-! ### The ring law for the engine's sums and words -/

theorem wsub_word (x y : Int) : wsub (word x) (word y) = word (x - y) := by
  obtain ⟨-, h, -⟩ := wordIsARingHomomorphism.1 x y
  exact h

theorem wmul_word (x y : Int) : wmul (word x) (word y) = word (x * y) := by
  obtain ⟨-, -, h, -⟩ := wordIsARingHomomorphism.1 x y
  exact h

theorem dbl_word (x : Int) : dbl (word x) = word (2 * x) := by
  obtain ⟨-, -, -, h⟩ := wordIsARingHomomorphism.1 x x
  exact h

theorem wsum_encTerm1 (ls : List EncLane) : wsum (ls.map encTerm1) = word (encT ls) :=
  wsum_word ls _ _ fun l _ => by rw [encTerm1, EncLane.k, sext64, wmul_word, sq]

theorem wsum_encTerm2 (ls : List EncLane) : wsum (ls.map encTerm2) = word (encS2 ls) :=
  wsum_word ls _ _ fun l _ => by
    rw [encTerm2, EncLane.k, EncLane.r, EncLane.v, sext64, sext64, sext64, wsub_word, wmul_word]

theorem encWord_word (s1 s2 : Int) (l : EncLane) :
    encWord (word s1) (word s2) l = word (asSigned l.rot * s1 - 2 * (asSigned l.dk * s2)) := by
  rw [encWord, EncLane.r, EncLane.k, sext64, sext64, wmul_word, wmul_word, dbl_word, wsub_word]

/-- `Forward` gives the words of its integer expressions: what the statements below start from. -/
theorem forward_eq_map_word (ls : List EncLane) : forward ls = ls.map fun l => word (encInt ls l) := by
  rw [forward, wsum_encTerm1, wsum_encTerm2]
  exact List.map_congr_left fun l _ => encWord_word _ _ l

theorem forward_getElem? (ls : List EncLane) {j : Nat} (h : j < ls.length) :
    (forward ls)[j]? = some (word (encInt ls ls[j])) := by
  rw [forward_eq_map_word, List.getElem?_map, List.getElem?_eq_getElem h]
  rfl

/-- Settles O16: the words are the definition's, and their integers the ring law's. -/
theorem forwardIsTheDocumentsFormula : Obligations.ForwardIsTheDocumentsFormula := by
  refine fun ls => ⟨forward_length ls, fun j h => ⟨?_, forward_getElem? ls h⟩⟩
  rw [forward, List.getElem?_map, List.getElem?_eq_getElem h]
  rfl

/-! ### The matrix form (R145) -/

theorem encT_eq_sum (ls : List EncLane) :
    encT ls = ∑ j : Fin ls.length, asSigned ls[j].dk * asSigned ls[j].dk :=
  (Fin.sum_univ_fun_getElem ls fun l => asSigned l.dk ^ 2).symm.trans
    (Finset.sum_congr rfl fun _ _ => sq _)

theorem encS2_eq_sum (ls : List EncLane) :
    encS2 ls = ∑ j : Fin ls.length, asSigned ls[j].dk * asSigned ls[j].rot -
      ∑ j : Fin ls.length, asSigned ls[j].dk * asSigned ls[j].iv := by
  rw [← Finset.sum_sub_distrib]
  exact (Fin.sum_univ_fun_getElem ls fun l => asSigned l.dk * (asSigned l.rot - asSigned l.iv)).symm.trans
    (Finset.sum_congr rfl fun _ _ => mul_sub _ _ _)

/-- `M·x = S1·x − 2·k·(kᵀ·x)`, at index `i`. -/
theorem sum_encMatrix_mul (ls : List EncLane) (i : Fin ls.length) (x : Fin ls.length → Int) :
    ∑ j, encMatrix ls i j * x j =
      encT ls * x i - 2 * (asSigned ls[i].dk * ∑ j : Fin ls.length, asSigned ls[j].dk * x j) := by
  simp only [encMatrix, sub_mul, ite_mul, zero_mul, Finset.sum_sub_distrib, Finset.sum_ite_eq, Finset.mem_univ,
    if_true, Finset.mul_sum, mul_assoc]

theorem encMatrix_symm (ls : List EncLane) (i j : Fin ls.length) : encMatrix ls i j = encMatrix ls j i := by
  simp only [encMatrix, eq_comm (a := i), mul_comm (asSigned ls[i].dk)]

/-- The key is an eigenvector: `kᵀ·M = −S1·kᵀ`, at index `j`. -/
theorem sum_key_mul_encMatrix (ls : List EncLane) (j : Fin ls.length) :
    ∑ l : Fin ls.length, asSigned ls[l].dk * encMatrix ls l j = -(encT ls * asSigned ls[j].dk) := by
  have h := sum_encMatrix_mul ls j fun l => asSigned ls[l].dk
  rw [← encT_eq_sum] at h
  calc ∑ l : Fin ls.length, asSigned ls[l].dk * encMatrix ls l j
      = ∑ l : Fin ls.length, encMatrix ls j l * asSigned ls[l].dk :=
        Finset.sum_congr rfl fun l _ => by rw [mul_comm, encMatrix_symm]
    _ = -(encT ls * asSigned ls[j].dk) := by rw [h]; ring

/-- `M·M = S1²·I`. -/
theorem encMatrix_mul_self (ls : List EncLane) (i j : Fin ls.length) :
    ∑ l, encMatrix ls i l * encMatrix ls l j = if i = j then encT ls ^ 2 else 0 := by
  rw [sum_encMatrix_mul, sum_key_mul_encMatrix, encMatrix]
  split <;> ring

/-- Settles O18: `M·r + 2·k·(kᵀ·v)` regroups `r·S1 − 2·k·S2`. -/
theorem forwardIsAMatrixVectorProduct : Obligations.ForwardIsAMatrixVectorProduct := by
  refine fun ls i => ⟨?_, encMatrix_mul_self ls i⟩
  rw [forward_getElem? ls i.isLt, sum_encMatrix_mul ls i fun j => asSigned ls[j].rot, encInt, encS2_eq_sum]
  congr 2
  simp only [Fin.getElem_fin]
  ring

/-! ### The bounds (R146) -/

theorem abs_asSigned_le (b : Byte) : |asSigned b| ≤ 128 := by
  have hlow := b.le_toInt
  have hhigh := b.toInt_lt
  rw [asSigned_eq_toInt, abs_le]
  omega

theorem abs_mul_le {x y a b : Int} (hx : |x| ≤ a) (hy : |y| ≤ b) : |x * y| ≤ a * b := by
  rw [abs_mul]
  exact mul_le_mul hx hy (abs_nonneg y) ((abs_nonneg x).trans hx)

theorem abs_sum_map_le {α : Type} {xs : List α} {f : α → Int} {c : Int} (h : ∀ x ∈ xs, |f x| ≤ c) :
    |(xs.map f).sum| ≤ xs.length * c := by
  calc |(xs.map f).sum|
      ≤ ((xs.map f).map fun z => |z|).sum := List.le_sum_of_subadditive _ abs_zero.le abs_add_le _
    _ ≤ ((xs.map f).map fun z => |z|).length • c := List.sum_le_card_nsmul _ _ (by simpa using h)
    _ = xs.length * c := by simp

theorem abs_encT_le (ls : List EncLane) : |encT ls| ≤ ls.length * 2 ^ 14 :=
  abs_sum_map_le fun l _ => by
    rw [sq]
    exact abs_mul_le (abs_asSigned_le l.dk) (abs_asSigned_le l.dk)

/-- The difference of two bytes is at most 255, not 256: what makes the spec's bound on `S2` strict. -/
theorem abs_encS2_le (ls : List EncLane) : |encS2 ls| ≤ ls.length * (128 * 255) :=
  abs_sum_map_le fun l _ => abs_mul_le (abs_asSigned_le l.dk) (by
    have hr := l.rot.le_toInt
    have hr' := l.rot.toInt_lt
    have hv := l.iv.le_toInt
    have hv' := l.iv.toInt_lt
    rw [asSigned_eq_toInt, asSigned_eq_toInt, abs_le]
    omega)

theorem abs_encInt_le (ls : List EncLane) (l : EncLane) : |encInt ls l| ≤ 5 * ls.length * 2 ^ 21 := by
  have h1 := abs_mul_le (abs_asSigned_le l.rot) (abs_encT_le ls)
  have h2 := abs_mul_le (abs_asSigned_le l.dk) (abs_encS2_le ls)
  rw [abs_le] at h1 h2
  rw [encInt, abs_le]
  omega

/-- Settles O19: the integers fit in a signed word, so each word's signed value is its integer. -/
theorem forwardNeverWraps : Obligations.ForwardNeverWraps := by
  intro ls j h hn
  have hword : |encInt ls ls[j]| < 2 ^ 56 := by
    have := abs_encInt_le ls ls[j]
    omega
  refine ⟨(le_abs_self _).trans (abs_encT_le ls), ?_, abs_encInt_le ls _, hword, ?_⟩
  · have := abs_encS2_le ls
    omega
  · obtain ⟨hlow, hhigh⟩ := abs_lt.mp hword
    rw [forward_getElem? ls h, Option.map_some, toInt_word (by omega) (by omega)]

end Sys2Proof.Proofs.ForwardTransform

/-! SUPPORT. The order of the lanes (42_forward_transform.md R147, 43_inverse_transform.md R160): each output is a
function of its lane and of sums, which no permutation changes. -/

namespace Sys2Proof.Proofs.LaneOrder

open Sys2Proof Sys2Proof.Machine
open Sys2Proof.Proofs.Arithmetic Sys2Proof.Proofs.ForwardTransform

theorem encInt_congr_perm {ls ls' : List EncLane} (h : ls.Perm ls') : encInt ls = encInt ls' := by
  have hT : encT ls = encT ls' := (h.map _).sum_eq
  have hS2 : encS2 ls = encS2 ls' := (h.map _).sum_eq
  funext l
  rw [encInt, encInt, hT, hS2]

theorem inverse_eq_none_iff {ls : List DecLane} : inverse ls = none ↔ divisorOf ls = 0#64 := by
  simp [inverse, divisorOf]

/-- One byte of `Inverse`, with the total division of the library. -/
def inverseByte (ls : List DecLane) (l : DecLane) : Byte :=
  trunc8 ((decNumerator (wsum (ls.map decTerm1)) (wsum (ls.map decTerm2)) (wsum (ls.map decTerm3)) l).sdiv
    (divisorOf ls))

theorem eq_map_of_inverse {ls : List DecLane} {bs : List Byte} (h : inverse ls = some bs) :
    bs = ls.map (inverseByte ls) := by
  obtain ⟨hdivisor, hbs⟩ := Option.dite_none_left_eq_some.mp h
  rw [← Option.some.inj hbs]
  exact List.map_congr_left fun l _ => by rw [decByte, sdiv_eq_sdiv, inverseByte, divisorOf]

theorem wsum_map_congr_perm {α : Type} {xs ys : List α} (h : xs.Perm ys) (f : α → Word) :
    wsum (xs.map f) = wsum (ys.map f) :=
  sumOrderIsIrrelevant.1 _ _ (h.map f)

theorem divisorOf_congr_perm {ls ls' : List DecLane} (h : ls.Perm ls') : divisorOf ls = divisorOf ls' := by
  rw [divisorOf, divisorOf, wsum_map_congr_perm h]

theorem inverseByte_congr_perm {ls ls' : List DecLane} (h : ls.Perm ls') : inverseByte ls = inverseByte ls' := by
  funext l
  simp only [inverseByte, divisorOf_congr_perm h, wsum_map_congr_perm h]

/-- Lists that are permutations of each other, paired with one function's values, still are. -/
theorem perm_zip_map {α β : Type} {xs ys : List α} (h : xs.Perm ys) (f : α → β) :
    (xs.zip (xs.map f)).Perm (ys.zip (ys.map f)) := by
  rw [← List.map_prod_left_eq_zip, ← List.map_prod_left_eq_zip]
  exact h.map _

/-- Settles O32: the function that gives a lane's output is the same for both orders. -/
theorem laneOrderIsIrrelevant : Obligations.LaneOrderIsIrrelevant := by
  refine ⟨fun ls ls' h => ?_, fun ls ls' h => ⟨?_, fun bs bs' hbs hbs' => ?_⟩⟩
  · rw [forward_eq_map_word, forward_eq_map_word, encInt_congr_perm h]
    exact perm_zip_map h _
  · rw [inverse_eq_none_iff, inverse_eq_none_iff, divisorOf_congr_perm h]
  · rw [eq_map_of_inverse hbs, eq_map_of_inverse hbs', inverseByte_congr_perm h]
    exact perm_zip_map h _

end Sys2Proof.Proofs.LaneOrder

/-! SUPPORT. The command `ENC` in every state, run once and run twice, and the corner cases of the forward transform
(42_forward_transform.md R142, R144). -/

namespace Sys2Proof.Proofs.EncCommand

open Sys2Proof Sys2Proof.Machine
open Sys2Proof.Proofs.BlockEffects Sys2Proof.Proofs.Results Sys2Proof.Proofs.CommandFrame
open Sys2Proof.Proofs.ValidationGate Sys2Proof.Proofs.ForwardTransform

/-- Settles O15: the command's answers under its conditions, and a read of the vector it has stored. -/
theorem encEncryptsIntoCt : Obligations.EncEncryptsIntoCt := by
  refine ⟨decode_encode .enc, fun s => ⟨fun hn => ?_, fun hn hcap => ?_, fun ls hn hcap hlen hlanes => ?_⟩⟩
  · exact ⟨_, execEnc_failed (gateEnc_empty hn), endedInError_raise _ s⟩
  · exact ⟨_, execEnc_exceeded (gateEnc_eq_none_iff.mpr hn) (capacityCheck_exceeded hcap),
      endedInError_raise _ s⟩
  · have hload : loadEncLanes s = .ok ls :=
      (loadEncLanes_ok_iff s ls).mpr ⟨hlen, fun j hj => ⟨(hlen ▸ hj).trans_le hcap, hlanes j hj⟩⟩
    refine ⟨_, execEnc_of_lanes hn hcap hload, endedInSuccess_complete _, rfl, rfl, rfl, fun j => ?_⟩
    rw [complete_mem, storeCt_mem, bufGet_bufStore_zero, forward_length, hlen]

/-! ### Corner cases of the transform -/

/-- A key of zero bytes has no squares to sum, whichever transform's lanes hold it. -/
theorem sum_sq_key_eq_zero {α : Type} {ls : List α} {dk : α → Byte} (h : ∀ l ∈ ls, dk l = 0#8) :
    (ls.map fun l => asSigned (dk l) ^ 2).sum = 0 := by
  refine List.sum_eq_zero fun x hx => ?_
  obtain ⟨l, hl, rfl⟩ := List.mem_map.mp hx
  rw [h l hl]
  rfl

theorem forward_zero_key {ls : List EncLane} (h : ∀ l ∈ ls, l.dk = 0#8) : forward ls = ls.map fun _ => 0#64 := by
  have hT : encT ls = 0 := sum_sq_key_eq_zero h
  rw [forward_eq_map_word]
  refine List.map_congr_left fun l hl => ?_
  have hk : asSigned l.dk = 0 := by rw [h l hl]; rfl
  rw [encInt, hT, hk, mul_zero, zero_mul, mul_zero, sub_zero]
  rfl

theorem wsum_decTerm1 (ds : List DecLane) : wsum (ds.map decTerm1) = word (decT ds) :=
  wsum_word ds _ _ fun l _ => by rw [decTerm1, DecLane.k, sext64, wmul_word, sq]

theorem divisorOf_zero_key {ds : List DecLane} (h : ∀ l ∈ ds, l.dk = 0#8) : divisorOf ds = 0#64 := by
  have hT : decT ds = 0 := sum_sq_key_eq_zero h
  rw [divisorOf, wsum_decTerm1, hT]
  rfl

theorem forward_single (l : EncLane) :
    forward [l] = [word (asSigned l.dk ^ 2 * (2 * asSigned l.iv - asSigned l.rot))] := by
  rw [forward_eq_map_word, List.map_singleton, encInt, encT, encS2, List.map_singleton, List.map_singleton,
    List.sum_singleton, List.sum_singleton]
  ring_nf

theorem forward_rot_eq_iv {ls : List EncLane} (h : ∀ l ∈ ls, l.rot = l.iv) :
    forward ls = ls.map fun l => word (asSigned l.rot * encT ls) := by
  have hS2 : encS2 ls = 0 := by
    refine List.sum_eq_zero fun x hx => ?_
    obtain ⟨l, hl, rfl⟩ := List.mem_map.mp hx
    rw [h l hl, sub_self, mul_zero]
  rw [forward_eq_map_word]
  exact List.map_congr_left fun l _ => by rw [encInt, hS2, mul_zero, mul_zero, sub_zero]

/-! ### `ENC` run twice -/

theorem mem_of_not_done {i : Instr} {s t : State} (h : exec i s = .next t) (ht : t.regs.status ≠ statusDone) :
    t.mem = s.mem := by
  cases exec_ending h with
  | done => exact absurd rfl ht
  | failed => rfl

/-- A command leaves what its own start does not overwrite: started again, it finds the same registers. -/
theorem startCommand_regs_of_exec {i : Instr} {w : CommandWord} {s t : State}
    (h : exec i (startCommand w s) = .next t) : (startCommand w t).regs = (startCommand w s).regs := by
  obtain ⟨-, -, -, -, -, -, hdata, hiv, hcap, -⟩ := commandsWriteOnlyTheirOutput i _ t h
  simp only [startCommand] at hdata hiv hcap ⊢
  rw [hdata, hiv, hcap]

/-- Run again on its own result, `ENC` reads the inputs it left alone and writes the same words. -/
theorem enc_again {w : CommandWord} {s t : State} (h : exec .enc (startCommand w s) = .next t) :
    ∃ t', exec .enc (startCommand w t) = .next t' ∧ t'.regs = t.regs ∧
      t'.mem.rot = t.mem.rot ∧ t'.mem.iv = t.mem.iv ∧ t'.mem.dk = t.mem.dk ∧
      ∀ j, bufGet t'.mem.ct j = bufGet t.mem.ct j := by
  have hregs := startCommand_regs_of_exec h
  obtain ⟨hiv, hdk, -, hrot, -⟩ := commandsWriteOnlyTheirOutput .enc _ t h
  have hinputs : sameInputs .enc (startCommand w s) (startCommand w t) := by
    refine ⟨hregs.symm, fun _ j _ => ⟨?_, ?_, ?_⟩⟩
    · rw [startCommand_mem w t, hiv]
    · rw [startCommand_mem w t, hdk]
    · exact congrArg (bufGet · j) (hrot nofun).symm
  obtain ⟨t', h', hregs', hct⟩ := resultDependsOnInputsOnly .enc _ _ t hinputs h
  obtain ⟨hiv', hdk', -, hrot', habove, -⟩ := commandsWriteOnlyTheirOutput .enc _ t' h'
  refine ⟨t', h', hregs', hrot' nofun, hiv', hdk', fun j => ?_⟩
  by_cases hdone : t.regs.status = statusDone
  · by_cases hj : j < (startCommand w s).regs.dataLen.toNat
    · exact (hct hdone j hj).1 rfl
    · rw [← hregs] at hj
      exact (habove j (Nat.le_of_not_lt hj)).1
  · rw [mem_of_not_done h' (hregs' ▸ hdone), startCommand_mem]

/-- Settles O17; the byte 0xC8 has the signed value −56 by evaluation. -/
theorem encCornerCases : Obligations.EncCornerCases :=
  ⟨fun _ => forward_zero_key, fun _ => divisorOf_zero_key, forward_single, fun _ => forward_rot_eq_iv,
    fun _ h => congrArg sext64 h, fun _ _ => enc_again⟩

end Sys2Proof.Proofs.EncCommand

/-! SUPPORT. The inverse engine over the integers (43_inverse_transform.md R151, R158): the ring law for its sums and
numerators, one byte of `Inverse`, and when the divisor is zero. -/

namespace Sys2Proof.Proofs.InverseTransform

open Sys2Proof Sys2Proof.Machine
open Sys2Proof.Proofs.Arithmetic Sys2Proof.Proofs.ForwardTransform Sys2Proof.Proofs.LaneOrder
open Sys2Proof.Proofs.EncCommand

/-! ### The ring law for the engine's sums and numerators -/

theorem wadd_word (x y : Int) : wadd (word x) (word y) = word (x + y) := by
  rw [wadd_eq_add, word_add]

theorem wsum_decTerm2 (ds : List DecLane) : wsum (ds.map decTerm2) = word (decS2 ds) :=
  wsum_word ds _ _ fun l _ => by rw [decTerm2, DecLane.k, sext64, ← wmul_word, word_toInt]

theorem wsum_decTerm3 (ds : List DecLane) : wsum (ds.map decTerm3) = word (decS3 ds) :=
  wsum_word ds _ _ fun l _ => by rw [decTerm3, DecLane.k, DecLane.v, sext64, sext64, wmul_word]

theorem divisorOf_eq_word (ds : List DecLane) : divisorOf ds = word (decT ds * decT ds) := by
  rw [divisorOf, wsum_decTerm1, wmul_word]

/-- The numerator of a lane whose ciphertext is the word of any integer `c`, not only of its signed value. -/
theorem decNumerator_word (s1 s2 s3 c : Int) (v k : Byte) :
    decNumerator (word s1) (word s2) (word s3) { ct := word c, iv := v, dk := k } =
      word ((c + 2 * (asSigned k * s3)) * s1 - 2 * (asSigned k * s2)) := by
  simp only [decNumerator, DecLane.k, sext64, wmul_word, dbl_word, wadd_word, wsub_word]

theorem decNumerator_eq_word (ds : List DecLane) (l : DecLane) :
    decNumerator (wsum (ds.map decTerm1)) (wsum (ds.map decTerm2)) (wsum (ds.map decTerm3)) l =
      word (decInt ds l) := by
  have h := decNumerator_word (decT ds) (decS2 ds) (decS3 ds) l.ct.toInt l.iv l.dk
  rw [word_toInt] at h
  rw [wsum_decTerm1, wsum_decTerm2, wsum_decTerm3, h, decInt]

/-! ### `Inverse`, byte by byte -/

/-- Past the guard, byte `j` is the byte of lane `j`. -/
theorem inverse_getElem? {ds : List DecLane} {bs : List Byte} (hbs : inverse ds = some bs) {j : Nat}
    (hj : j < ds.length) : ∃ divisor : divisorOf ds ≠ 0#64,
      bs[j]? = some (decByte (wsum (ds.map decTerm1)) (wsum (ds.map decTerm2)) (wsum (ds.map decTerm3))
        (divisorOf ds) divisor ds[j]) := by
  obtain ⟨divisor, hmap⟩ := Option.dite_none_left_eq_some.mp hbs
  refine ⟨divisor, ?_⟩
  rw [← Option.some.inj hmap, List.getElem?_map, List.getElem?_eq_getElem hj]
  rfl

/-- Settles O21: the words are the definition's, and their integers the ring law's. -/
theorem inverseIsTheDocumentsFormula : Obligations.InverseIsTheDocumentsFormula := by
  refine fun ds => ⟨inverse_eq_none_iff, divisorOf_eq_word ds, fun bs hbs =>
    ⟨inverse_length ds bs hbs, fun j hj => ?_⟩⟩
  obtain ⟨divisor, hbyte⟩ := inverse_getElem? hbs hj
  refine ⟨⟨divisor, hbyte⟩, ?_⟩
  rw [hbyte, decByte, sdiv, decNumerator_eq_word, divisorOf_eq_word, trunc8]

theorem inverse_eq_some {ds : List DecLane} (h : divisorOf ds ≠ 0#64) :
    inverse ds = some (ds.map (inverseByte ds)) := by
  obtain ⟨bs, hbs⟩ := Option.ne_none_iff_exists'.mp (mt inverse_eq_none_iff.mp h)
  rw [hbs, eq_map_of_inverse hbs]

/-! ### The sum of the key's squares, whichever transform's lanes hold the key -/

theorem asSigned_eq_zero_iff {b : Byte} : asSigned b = 0 ↔ b = 0#8 := by
  rw [asSigned_eq_toInt, ← BitVec.toInt_inj, BitVec.toInt_zero]

section
variable {α : Type} (ls : List α) (dk : α → Byte)

theorem sum_sq_key_nonneg : 0 ≤ (ls.map fun l => asSigned (dk l) ^ 2).sum :=
  List.sum_nonneg (List.forall_mem_map.mpr fun _ _ => sq_nonneg _)

theorem sum_sq_key_le : (ls.map fun l => asSigned (dk l) ^ 2).sum ≤ ls.length * 2 ^ 14 :=
  (le_abs_self _).trans <| abs_sum_map_le fun l _ => by
    rw [sq]
    exact abs_mul_le (abs_asSigned_le (dk l)) (abs_asSigned_le (dk l))

variable {ls dk}

theorem sum_sq_key_eq_zero_iff : (ls.map fun l => asSigned (dk l) ^ 2).sum = 0 ↔ ∀ l ∈ ls, dk l = 0#8 := by
  refine ⟨fun h l hl => ?_, sum_sq_key_eq_zero⟩
  have hle : asSigned (dk l) ^ 2 ≤ (ls.map fun l => asSigned (dk l) ^ 2).sum :=
    List.single_le_sum (List.forall_mem_map.mpr fun _ _ => sq_nonneg _) _ (List.mem_map_of_mem hl)
  rw [h] at hle
  exact asSigned_eq_zero_iff.mp (pow_eq_zero_iff two_ne_zero |>.mp (hle.antisymm (sq_nonneg _)))

/-- Every key byte the most negative one: each square is 2^14. -/
theorem sum_sq_key_of_min (h : ∀ l ∈ ls, dk l = 0x80#8) :
    (ls.map fun l => asSigned (dk l) ^ 2).sum = ls.length * 2 ^ 14 := by
  have hmap : (ls.map fun l => asSigned (dk l) ^ 2) = ls.map fun _ => (2 : Int) ^ 14 :=
    List.map_congr_left fun l hl => by rw [h l hl]; rfl
  rw [hmap, List.map_const', List.sum_replicate, nsmul_eq_mul]

end

/-! ### The divisor (R158) -/

theorem word_eq_zero_iff {z : Int} : word z = 0#64 ↔ (2 : Int) ^ 64 ∣ z := by
  rw [← BitVec.toNat_inj, word, BitVec.toNat_ofInt, BitVec.toNat_ofNat]
  omega

theorem divisorOf_eq_zero_iff {ds : List DecLane} : divisorOf ds = 0#64 ↔ (2 : Int) ^ 32 ∣ decT ds := by
  rw [divisorOf_eq_word, word_eq_zero_iff, ← sq, show (2 : Int) ^ 64 = (2 ^ 32) ^ 2 by norm_num,
    Int.pow_dvd_pow_iff two_ne_zero]

/-- Below 2^32 the only multiple of 2^32 is 0. -/
theorem divisorOf_eq_zero_iff_zero_key {ds : List DecLane} (h : decT ds < 2 ^ 32) :
    divisorOf ds = 0#64 ↔ ∀ l ∈ ds, l.dk = 0#8 := by
  refine ⟨fun hz => sum_sq_key_eq_zero_iff.mp ?_, divisorOf_zero_key⟩
  exact Int.eq_zero_of_dvd_of_nonneg_of_lt (sum_sq_key_nonneg ds DecLane.dk) h (divisorOf_eq_zero_iff.mp hz)

/-- A square below 2^63 is its own signed word, and not negative. -/
theorem le_sq_of_divisorOf_neg {ds : List DecLane} (h : (divisorOf ds).toInt < 0) : 2 ^ 63 ≤ decT ds ^ 2 := by
  by_contra! hlt
  have hsq := sq_nonneg (decT ds)
  rw [divisorOf_eq_word, ← sq, toInt_word (by omega) hlt] at h
  omega

/-- Settles O22: everything but the last two clauses follows from `0 ≤ T ≤ n·2^14`. -/
theorem divisorIsZeroExactlyWhen : Obligations.DivisorIsZeroExactlyWhen := by
  intro ds hn
  have hT0 : 0 ≤ decT ds := sum_sq_key_nonneg ds DecLane.dk
  have hT : decT ds ≤ ds.length * 2 ^ 14 := sum_sq_key_le ds DecLane.dk
  refine ⟨hT, by omega, ?_, divisorOf_eq_zero_iff, fun hlen => ?_, fun hlen hkey => ?_,
    wmul_self_ne_neg_one _, le_sq_of_divisorOf_neg⟩
  · rw [wsum_decTerm1, toInt_word (by omega) (by omega)]
  · have hlt : decT ds < 2 ^ 32 := by omega
    exact ⟨hlt, divisorOf_eq_zero_iff_zero_key hlt⟩
  · have heq : decT ds = 2 ^ 32 := by
      rw [decT, sum_sq_key_of_min hkey, hlen]
      norm_num
    exact ⟨heq, divisorOf_eq_zero_iff.mpr (dvd_of_eq heq.symm)⟩

end Sys2Proof.Proofs.InverseTransform

/-! SUPPORT. The round trip (43_inverse_transform.md R156, R157, R159): on a ciphertext that `Forward` made every
numerator is the word of `T²·r[i]`, and the truncating division takes the `T²` away. -/

namespace Sys2Proof.Proofs.RoundTrip

open Sys2Proof Sys2Proof.Machine
open Sys2Proof.Proofs.Arithmetic Sys2Proof.Proofs.ForwardTransform Sys2Proof.Proofs.LaneOrder
open Sys2Proof.Proofs.EncCommand Sys2Proof.Proofs.InverseTransform

/-! ### The lanes of a ciphertext -/

/-- The lane `DEC` sees where `ENC` of the lanes `ls` had the lane `l`. -/
def cipherLane (ls : List EncLane) (l : EncLane) : DecLane :=
  { ct := word (encInt ls l), iv := l.iv, dk := l.dk }

theorem decLanes_forward (ls : List EncLane) : decLanes ls (forward ls) = ls.map (cipherLane ls) := by
  rw [decLanes, forward_eq_map_word, List.zipWith_map_right, List.zipWith_self]
  rfl

theorem decT_cipherLane (ls : List EncLane) : decT (ls.map (cipherLane ls)) = encT ls := by
  rw [decT, List.map_map]
  rfl

theorem divisorOf_cipherLane (ls : List EncLane) : divisorOf (ls.map (cipherLane ls)) = word (encT ls ^ 2) := by
  rw [divisorOf_eq_word, decT_cipherLane, sq]

/-! ### The numerators -/

/-- `Σ k·v` of an encryption, the key against the IV. -/
def encS3 (ls : List EncLane) : Int :=
  (ls.map fun l => asSigned l.dk * asSigned l.iv).sum

theorem decS3_cipherLane (ls : List EncLane) : decS3 (ls.map (cipherLane ls)) = encS3 ls := by
  rw [decS3, List.map_map]
  rfl

/-- The key against the ciphertext: `Σ k·C = T·(Σ k·v − S2)`, R157's `kᵀC`. -/
theorem sum_key_mul_encInt (ls : List EncLane) :
    (ls.map fun l => asSigned l.dk * encInt ls l).sum = encT ls * (encS3 ls - encS2 ls) := by
  have hterm : ∀ l : EncLane, asSigned l.dk * encInt ls l =
      encT ls * (asSigned l.dk * (asSigned l.rot - asSigned l.iv)) +
        encT ls * (asSigned l.dk * asSigned l.iv) + -2 * encS2 ls * asSigned l.dk ^ 2 := by
    intro l
    rw [encInt]
    ring
  simp only [hterm, List.sum_map_add, List.sum_map_mul_left]
  rw [← encT, ← encS2, ← encS3]
  ring

theorem wsum_decTerm2_cipherLane (ls : List EncLane) :
    wsum ((ls.map (cipherLane ls)).map decTerm2) = word (encT ls * (encS3 ls - encS2 ls)) := by
  rw [List.map_map, ← sum_key_mul_encInt]
  exact wsum_word ls _ _ fun l _ => wmul_word _ _

/-- `N = T²·r`, R157's identity: the words wrap, the identity does not need that they fit. -/
theorem decNumerator_cipherLane (ls : List EncLane) (l : EncLane) :
    let ds := ls.map (cipherLane ls)
    decNumerator (wsum (ds.map decTerm1)) (wsum (ds.map decTerm2)) (wsum (ds.map decTerm3)) (cipherLane ls l) =
      word (encT ls ^ 2 * asSigned l.rot) := by
  intro ds
  rw [wsum_decTerm1, wsum_decTerm2_cipherLane, wsum_decTerm3, decT_cipherLane, decS3_cipherLane, cipherLane,
    decNumerator_word, encInt]
  ring_nf

/-- Settles O23: the identity, at lane `j`. -/
theorem numeratorOfACiphertextIsASquareMultiple : Obligations.NumeratorOfACiphertextIsASquareMultiple := by
  intro ls j hj
  rw [decLanes_forward]
  simp only [List.getElem?_map, List.getElem?_eq_getElem hj, Option.map_some, decNumerator_cipherLane]

/-! ### The division -/

theorem inverse_ciphertext {ls : List EncLane} (h : word (encT ls ^ 2) ≠ 0#64) :
    inverse (decLanes ls (forward ls)) = some (ls.map fun l =>
      trunc8 ((word (encT ls ^ 2 * asSigned l.rot)).sdiv (word (encT ls ^ 2)))) := by
  rw [decLanes_forward, inverse_eq_some (divisorOf_cipherLane ls ▸ h), List.map_map]
  refine congrArg some (List.map_congr_left fun l _ => ?_)
  rw [Function.comp_apply, inverseByte, decNumerator_cipherLane, divisorOf_cipherLane]

/-- 2^63 is no square. -/
theorem sq_ne_two_pow_63 (T : Int) : T ^ 2 ≠ 2 ^ 63 := by
  intro h
  have hlow : 3037000499 < |T| := lt_of_pow_lt_pow_left₀ 2 (abs_nonneg T) (by rw [sq_abs, h]; norm_num)
  have hhigh : |T| < 3037000500 := lt_of_pow_lt_pow_left₀ 2 (by norm_num) (by rw [sq_abs, h]; norm_num)
  omega

/-- The quotient of `T²·r` by `T²` as signed words is `r`. Where the divisor itself is no signed value, `r` is 0:
`r = −1` would need `T² = 2^63`. -/
theorem sdiv_word_sq_mul {T r : Int} (h : word (T ^ 2) ≠ 0#64) (hlow : -2 ^ 63 ≤ T ^ 2 * r)
    (hhigh : T ^ 2 * r < 2 ^ 63) : (word (T ^ 2 * r)).sdiv (word (T ^ 2)) = word r := by
  have hsq := sq_nonneg T
  by_cases hr : r = 0
  · rw [hr, mul_zero]
    exact BitVec.zero_sdiv
  · have hfits : T ^ 2 < 2 ^ 63 := by
      refine lt_of_le_of_ne ?_ (sq_ne_two_pow_63 T)
      obtain hneg | hpos := lt_or_gt_of_ne hr
      · nlinarith
      · nlinarith
    have hT : T ^ 2 ≠ 0 := fun h0 => h (congrArg word h0)
    rw [← sdiv_eq_sdiv _ _ h, sdiv_word h hlow hhigh (by omega) hfits, Int.mul_tdiv_cancel_left r hT]

/-- The last clause of R157: off its two ways of failing the round trip restores every byte. -/
theorem inverse_forward_of_fits {ls : List EncLane}
    (hfits : ∀ l ∈ ls, -2 ^ 63 ≤ encT ls ^ 2 * asSigned l.rot ∧ encT ls ^ 2 * asSigned l.rot < 2 ^ 63)
    (h : word (encT ls ^ 2) ≠ 0#64) :
    inverse (decLanes ls (forward ls)) = some (ls.map fun l => l.rot) := by
  rw [inverse_ciphertext h]
  refine congrArg some (List.map_congr_left fun l hl => ?_)
  obtain ⟨hlow, hhigh⟩ := hfits l hl
  rw [sdiv_word_sq_mul h hlow hhigh]
  exact trunc8_sext64 l.rot

/-! ### The bound -/

theorem asSigned_bounds (b : Byte) : -128 ≤ asSigned b ∧ asSigned b ≤ 127 := by
  have hlow := b.le_toInt
  have hhigh := b.toInt_lt
  rw [asSigned_eq_toInt]
  omega

/-- R157's bound: no `T²·r` overflows, and `T²` is a positive word. -/
theorem inverse_forward {ls : List EncLane} (hpos : 1 ≤ encT ls) (hle : encT ls ≤ 2 ^ 28) :
    inverse (decLanes ls (forward ls)) = some (ls.map fun l => l.rot) := by
  have hsq1 : 1 ≤ encT ls ^ 2 := one_le_pow₀ hpos
  have hsq : encT ls ^ 2 ≤ 2 ^ 56 := pow_le_pow_left₀ (by omega) hle 2
  refine inverse_forward_of_fits (fun l _ => ?_) fun hz => ?_
  · obtain ⟨hr, hr'⟩ := asSigned_bounds l.rot
    have hlow := mul_le_mul_of_nonneg_left hr (sq_nonneg (encT ls))
    have hhigh := mul_le_mul_of_nonneg_left hr' (sq_nonneg (encT ls))
    omega
  · have hdvd := word_eq_zero_iff.mp hz
    omega

/-- At most 16384 lanes, some key byte not zero: the bound holds. -/
theorem inverse_forward_of_length_le {ls : List EncLane} (hlen : ls.length ≤ 16384)
    (hkey : ∃ l ∈ ls, l.dk ≠ 0#8) : inverse (decLanes ls (forward ls)) = some (ls.map fun l => l.rot) := by
  have hT0 : 0 ≤ encT ls := sum_sq_key_nonneg ls EncLane.dk
  have hT : encT ls ≤ ls.length * 2 ^ 14 := sum_sq_key_le ls EncLane.dk
  have hne : encT ls ≠ 0 := by
    obtain ⟨l, hl, hk⟩ := hkey
    exact fun h => hk (sum_sq_key_eq_zero_iff.mp h l hl)
  exact inverse_forward (by omega) (by omega)

/-! ### Just beyond the bound -/

theorem encT_replicate_min (n : Nat) (r v : Byte) :
    encT (List.replicate n { rot := r, iv := v, dk := 0x80#8 }) = n * 2 ^ 14 := by
  rw [encT, sum_sq_key_of_min (by simp), List.length_replicate]

/-- V-RT3: `−128·T²` is below −2^63 and wraps to a positive numerator, whose quotient is 127. -/
theorem inverse_forward_beyond_bound (v : Byte) :
    inverse (decLanes (List.replicate 16385 { rot := 0x80#8, iv := v, dk := 0x80#8 })
      (forward (List.replicate 16385 { rot := 0x80#8, iv := v, dk := 0x80#8 }))) =
        some (List.replicate 16385 0x7F#8) := by
  have hdivisor : word ((16385 * 2 ^ 14) ^ 2) ≠ 0#64 := by decide
  have hbyte : trunc8 ((word ((16385 * 2 ^ 14) ^ 2 * asSigned 0x80#8)).sdiv (word ((16385 * 2 ^ 14) ^ 2))) =
      0x7F#8 := by decide
  have hT := encT_replicate_min 16385 0x80#8 v
  rw [inverse_ciphertext (by rw [hT]; exact hdivisor), List.map_replicate, hT]
  exact congrArg (fun b => some (List.replicate 16385 b)) hbyte

/-- Settles O24. -/
theorem roundTripRestoresEveryByte : Obligations.RoundTripRestoresEveryByte := by
  refine ⟨fun ls => inverse_forward, fun ls => inverse_forward_of_length_le,
    fun v => ⟨(encT_replicate_min _ _ v).trans (by norm_num), inverse_forward_beyond_bound v⟩,
    fun ls hfits h => inverse_forward_of_fits hfits ?_⟩
  rwa [decLanes_forward, divisorOf_cipherLane] at h

end Sys2Proof.Proofs.RoundTrip

/-! SUPPORT. The command `DEC` in every state, and `DEC` after `ENC` (43_inverse_transform.md R152, R156). -/

namespace Sys2Proof.Proofs.DecCommand

open Sys2Proof Sys2Proof.Machine
open Sys2Proof.Proofs.Results Sys2Proof.Proofs.ValidationGate Sys2Proof.Proofs.ForwardTransform
open Sys2Proof.Proofs.LaneOrder Sys2Proof.Proofs.InverseTransform Sys2Proof.Proofs.RoundTrip

/-- Settles O20: the command's answers under its conditions in their order, and a read of the vector it has
stored. -/
theorem decDecryptsIntoRot : Obligations.DecDecryptsIntoRot := by
  refine ⟨decode_encode .dec, fun s => ⟨fun hn => ?_, fun hn hm => ?_, fun hn hm hcap => ?_,
    fun ls hn hm hcap hlen hlanes => ?_⟩⟩
  · exact ⟨_, execDec_failed (gateDec_empty _ hn), endedInError_raise _ s⟩
  · exact ⟨_, execDec_failed (gateDec_mismatch hn hm), endedInError_raise _ s⟩
  · exact ⟨_, execDec_exceeded (gateDec_eq_none_iff.mpr ⟨hn, hm⟩) (capacityCheck_exceeded hcap),
      endedInError_raise _ s⟩
  · have hload : loadDecLanes s = .ok ls :=
      (loadDecLanes_ok_iff s ls).mpr ⟨hlen, fun j hj => ⟨(hlen ▸ hj).trans_le hcap, hlanes j hj⟩⟩
    refine ⟨fun hz => ?_, fun hz => ?_⟩
    · exact ⟨_, execDec_of_zero_divisor hn hm hcap hload (inverse_eq_none_iff.mpr hz), endedInError_raise _ s⟩
    · have hbs := inverse_eq_some hz
      refine ⟨_, _, execDec_of_lanes hn hm hcap hload hbs, hbs, endedInSuccess_complete _, rfl, rfl, rfl,
        fun j => ?_⟩
      rw [complete_mem, storeRot_mem, bufGet_bufStore_zero, inverse_length ls _ hbs, hlen]

/-! ### `DEC` after `ENC` -/

/-- An `ENC` that ended with `DONE` passed its checks and stored the words of its lanes. -/
theorem execEnc_done {s t : State} {ls : List EncLane} (hls : loadEncLanes s = .ok ls)
    (h : execEnc s = .next t) (hdone : t.regs.status = statusDone) :
    lengthN s ≠ 0#32 ∧ (lengthN s).toNat ≤ s.regs.capacity.toNat ∧ t = complete (storeCt s (forward ls)) := by
  obtain ⟨-, rfl⟩ | ⟨-, -, rfl⟩ | ⟨hn, hcap, ls', hls', rfl⟩ := execEnc_cases h
  · exact absurd hdone (by decide : statusError ≠ statusDone)
  · exact absurd hdone (by decide : statusError ≠ statusDone)
  · cases hls.symm.trans hls'
    exact ⟨hn, hcap, rfl⟩

/-- With the ciphertext of `ENC` in `CT` and its IV, key and length kept, the lanes of `DEC` are those of the
round trip. -/
theorem loadDecLanes_of_ciphertext {s u : State} {ls : List EncLane} (hls : loadEncLanes s = .ok ls)
    (hct : u.mem.ct = bufStore s.mem.ct 0 (forward ls)) (hiv : u.mem.iv = s.mem.iv) (hdk : u.mem.dk = s.mem.dk)
    (hn : u.regs.dataLen = s.regs.dataLen) (hcap : u.regs.capacity = s.regs.capacity) :
    loadDecLanes u = .ok (decLanes ls (forward ls)) := by
  obtain ⟨hlen, hlanes⟩ := (loadEncLanes_ok_iff s ls).mp hls
  rw [decLanes_forward, loadDecLanes_ok_iff]
  refine ⟨by rw [List.length_map, hlen, lengthN, lengthN, hn], fun j hj => ?_⟩
  rw [List.length_map] at hj
  obtain ⟨hj', -, hv, hk⟩ := hlanes j hj
  rw [hct, hiv, hdk, hcap, bufGet_bufStore_zero, forward_length, if_pos hj, forward_getElem? ls hj,
    List.getElem_map]
  exact ⟨hj', rfl, hv, hk⟩

/-- Settles O25: `DEC` loads the lanes of the round trip and stores the bytes `ENC` had read. -/
theorem encThenDecRestoresRot : Obligations.EncThenDecRestoresRot := by
  intro s t u ls hls hpos hle henc hdone hct hiv hdk hdata hm hcap
  obtain ⟨hn, hfits, rfl⟩ := execEnc_done hls henc hdone
  have hload := loadDecLanes_of_ciphertext hls hct hiv hdk hdata hcap
  have hdec := execDec_of_lanes (hdata.trans_ne hn) (hdata.trans hm.symm)
    (by rwa [lengthN, hdata, hcap]) hload (inverse_forward hpos hle)
  refine ⟨_, hdec, rfl, fun j hj => ?_⟩
  obtain ⟨hlen, hlanes⟩ := (loadEncLanes_ok_iff s ls).mp hls
  have hj' : j < ls.length := hlen ▸ hj
  obtain ⟨-, hrot, -⟩ := hlanes j hj'
  rw [complete_mem, storeRot_mem, bufGet_bufStore_zero, List.length_map, if_pos hj', List.getElem?_map,
    List.getElem?_eq_getElem hj', hrot]
  rfl

end Sys2Proof.Proofs.DecCommand

/-! SUPPORT. The engine errors (60_exceptions.md R171, R175, R177 to R179): which error ends a command, under which
condition, and what it leaves alone. -/

namespace Sys2Proof.Proofs.EngineErrors

open Sys2Proof Sys2Proof.Machine
open Sys2Proof.Proofs.BlockEffects Sys2Proof.Proofs.ValidationGate Sys2Proof.Proofs.LaneOrder

/-! ### `raise` -/

/-- Settles O26: the codes of each error are those of the table. -/
theorem raiseRecordsTheError : Obligations.RaiseRecordsTheError := by
  refine fun s => ⟨fun b => ?_, fun m n => endedInError_raise _ s, endedInError_raise _ s,
    endedInError_raise _ s, endedInError_raise _ s⟩
  cases b with
  | data => exact endedInError_raise (.dataLength .data) s
  | ciphertext => exact endedInError_raise (.dataLength .ciphertext) s

/-! ### The illegal command word -/

theorem runLatched_of_decode_error {s : State} {e : DecodeError} (h : decode (fetch s) = .error e) :
    runLatched s = .next (raise .badCmd s) := by
  rw [runLatched, h]

/-- Settles O5: the decoder's answer alone decides the engine's move, whatever else the state holds. -/
theorem illegalWordEndsInBadCmd : Obligations.IllegalWordEndsInBadCmd := by
  intro s e hturn hbusy hdecode
  rw [Scope.step_of_engine_busy hturn hbusy,
    runLatched_of_decode_error (by rwa [Scope.fetch_dropTurn])]
  exact ⟨_, rfl, endedInError_raise .badCmd (dropTurn s)⟩

/-! ### The errors of the four commands -/

theorem complete_status_ne_error (s : State) : (complete s).regs.status ≠ statusError :=
  (by decide : statusDone ≠ statusError)

/-- Settles O27: each ending of a command that is not `complete` is a `raise` under its row's condition. -/
theorem engineErrorsAreThoseOfTheTable : Obligations.EngineErrorsAreThoseOfTheTable := by
  intro i s t h herror
  cases i with
  | venc =>
    obtain ⟨hn, rfl⟩ | ⟨-, rfl⟩ := execVenc_cases h
    · exact .inl ⟨hn, endedInError_raise _ s⟩
    · exact absurd herror (complete_status_ne_error _)
  | vdec =>
    obtain ⟨hn, rfl⟩ | ⟨hn, hm, rfl⟩ | ⟨-, -, rfl⟩ := execVdec_cases h
    · exact .inl ⟨hn, endedInError_raise _ s⟩
    · exact .inr (.inl ⟨hn, rfl, hm, endedInError_raise _ s⟩)
    · exact absurd herror (complete_status_ne_error _)
  | enc =>
    obtain ⟨hn, rfl⟩ | ⟨hn, hcap, rfl⟩ | ⟨-, -, ls, -, rfl⟩ := execEnc_cases h
    · exact .inl ⟨hn, endedInError_raise _ s⟩
    · exact .inr (.inr (.inl ⟨hn, nofun, rfl, hcap, endedInError_raise _ s⟩))
    · exact absurd herror (complete_status_ne_error _)
  | dec =>
    obtain ⟨hn, rfl⟩ | ⟨hn, hm, rfl⟩ | ⟨hn, hm, hcap, rfl⟩ |
      ⟨hn, hm, hcap, ls, hls, ⟨hnone, rfl⟩ | ⟨bs, -, rfl⟩⟩ := execDec_cases h
    · exact .inl ⟨hn, endedInError_raise _ s⟩
    · exact .inr (.inl ⟨hn, rfl, hm, endedInError_raise _ s⟩)
    · exact .inr (.inr (.inl ⟨hn, fun _ => hm, rfl, hcap, endedInError_raise _ s⟩))
    · exact .inr (.inr (.inr ⟨hn, hm, rfl, hcap, ⟨ls, hls, inverse_eq_none_iff.mp hnone⟩,
        endedInError_raise _ s⟩))
    · exact absurd herror (complete_status_ne_error _)

/-! ### What a failed command leaves alone -/

/-- Settles O28: of the two endings of a latched word only `complete` writes, and it does not show `ERROR`. -/
theorem failedCommandWritesNothing : Obligations.FailedCommandWritesNothing := by
  intro s t h hbusy herror
  rw [engineStep, if_pos hbusy] at h
  cases runLatched_ending h with
  | done => exact absurd herror (complete_status_ne_error _)
  | failed e => exact raise_mem e s

end Sys2Proof.Proofs.EngineErrors

/-! SUPPORT. What an engine's move answers when inputs were never written, what a reset leaves and when the machine
rests (70_reset_and_hazards.md R200 to R207; 93_implementation_defined.md U3). -/

namespace Sys2Proof.Proofs.ResetAndHazards

open Sys2Proof Sys2Proof.Machine
open Sys2Proof.Proofs.Scope Sys2Proof.Proofs.BlockEffects Sys2Proof.Proofs.Results Sys2Proof.Proofs.Sequencer
open Sys2Proof.Proofs.CommandFrame Sys2Proof.Proofs.EngineErrors

/-! ### The checks and the inputs of a command -/

theorem passesChecks_iff_checkError {i : Instr} {s : State} :
    passesChecks i s ↔ i.runsTransform = true ∧ checkError i s = none := by
  rw [checkError, Option.or_eq_none_iff]
  cases i with
  | venc | vdec => simp [passesChecks, Instr.runsTransform]
  | enc =>
    simp [passesChecks, Instr.runsTransform, gatePath, Instr.decryptPath, gateEnc_eq_none_iff,
      capacityCheck_eq_none_iff, lengthN]
  | dec =>
    simp [passesChecks, Instr.runsTransform, gatePath, Instr.decryptPath, gateDec_eq_none_iff,
      capacityCheck_eq_none_iff, lengthN, lengthM, and_assoc]

theorem not_inputNeverWritten_of_laneWritten {i : Instr} {s : State} {sp : Space} {j : Nat}
    (h : laneWritten i s j) : ¬ inputNeverWritten i s sp j := by
  cases i with
  | venc | vdec => cases sp <;> simp [inputNeverWritten]
  | enc | dec =>
    obtain ⟨hdata, hiv, hdk⟩ := h
    cases sp <;> simp [inputNeverWritten, ← Option.isSome_iff_ne_none, hdata, hiv, hdk]

theorem laneWritten_of_loadEncLane {s : State} {j : Nat} {l : EncLane} (h : loadEncLane s j = .ok l) :
    laneWritten .enc s j := by
  obtain ⟨-, hrot, hiv, hdk⟩ := (loadEncLane_ok_iff s j l).mp h
  simp [laneWritten, hrot, hiv, hdk]

theorem laneWritten_of_loadDecLane {s : State} {j : Nat} {l : DecLane} (h : loadDecLane s j = .ok l) :
    laneWritten .dec s j := by
  obtain ⟨-, hct, hiv, hdk⟩ := (loadDecLane_ok_iff s j l).mp h
  simp [laneWritten, hct, hiv, hdk]

theorem inputNeverWritten_of_loadEncLane {s : State} {j : Nat} {e : Stop} (hj : j < s.regs.capacity.toNat)
    (h : loadEncLane s j = .error e) :
    ∃ sp, e = .refused (.neverWritten sp j) ∧ inputNeverWritten .enc s sp j := by
  obtain ⟨sp, he, hnone⟩ := loadEncLane_error s j e hj h
  refine ⟨sp.space, he, ?_⟩
  cases sp with
  | rot => exact ⟨rfl, hnone⟩
  | iv | dk => exact ⟨.inl rfl, hnone⟩

theorem inputNeverWritten_of_loadDecLane {s : State} {j : Nat} {e : Stop} (hj : j < s.regs.capacity.toNat)
    (h : loadDecLane s j = .error e) :
    ∃ sp, e = .refused (.neverWritten sp j) ∧ inputNeverWritten .dec s sp j := by
  obtain ⟨he, hnone⟩ | ⟨sp, hsp, he, hnone⟩ := loadDecLane_error s j e hj h
  · exact ⟨.ct, he, rfl, hnone⟩
  · refine ⟨sp.space, he, ?_⟩
    cases sp with
    | rot => exact absurd rfl hsp
    | iv | dk => exact ⟨.inr rfl, hnone⟩

/-! ### A command ends, or it is refused at a never-written input -/

/-- The two answers a command can give, each with what it tells of the inputs. -/
inductive Answer (i : Instr) (s : State) : Host.Outcome State Fault Refusal → Prop
  | ended (t : State) (h : passesChecks i s → inputsWritten i s) : Answer i s (.next t)
  | refused (sp : Space) (j : Nat) (hchecks : passesChecks i s) (hj : j < (lengthN s).toNat)
      (hnever : inputNeverWritten i s sp j) : Answer i s (.refused (.neverWritten sp j))

/-- A command that loads its lanes and then ends: the load decides, lane by lane. -/
theorem answer_afterLoad_collect {α : Type} {i : Instr} {s : State} {load : Nat → Except Stop α}
    {f : List α → Host.Outcome State Fault Refusal} (hchecks : passesChecks i s)
    (hok : ∀ j l, load j = .ok l → laneWritten i s j)
    (herror : ∀ j e, j < s.regs.capacity.toNat → load j = .error e →
      ∃ sp, e = .refused (.neverWritten sp j) ∧ inputNeverWritten i s sp j)
    (hf : ∀ ls, ∃ t, f ls = .next t) :
    Answer i s (afterLoad (collect load 0 (lengthN s).toNat) f) := by
  cases hload : collect load 0 (lengthN s).toNat with
  | ok ls =>
    obtain ⟨hlen, hlanes⟩ := (collect_ok_iff load 0 _ ls).mp hload
    obtain ⟨t, ht⟩ := hf ls
    rw [afterLoad_ok, ht]
    refine .ended t fun _ j hj => hok j (ls[j]'(hlen ▸ hj)) ?_
    simpa only [Nat.zero_add] using hlanes j (hlen ▸ hj)
  | error e =>
    obtain ⟨j, hj, he⟩ := collect_error load 0 _ e hload
    rw [Nat.zero_add] at he
    have ⟨_, _, _, hcap⟩ := hchecks
    obtain ⟨sp, rfl, hnever⟩ := herror j e (hj.trans_le hcap) he
    exact .refused sp j hchecks hj hnever

theorem finishDec_next (s : State) (bs : Option (List Byte)) : ∃ t, finishDec s bs = .next t := by
  cases bs <;> exact ⟨_, rfl⟩

/-- Only past its checks does a command read elements, and then n is at most NMAX (60_exceptions.md R177). -/
theorem exec_answer (i : Instr) (s : State) : Answer i s (exec i s) := by
  cases h : checkError i s with
  | some e =>
    rw [exec_of_checkError h]
    refine .ended _ fun hchecks => ?_
    obtain ⟨-, hnone⟩ := passesChecks_iff_checkError.mp hchecks
    simp [h] at hnone
  | none =>
    rw [exec_of_checked h]
    cases i with
    | venc | vdec => exact .ended _ fun _ _ _ => trivial
    | enc =>
      exact answer_afterLoad_collect (passesChecks_iff_checkError.mpr ⟨rfl, h⟩)
        (fun _ _ => laneWritten_of_loadEncLane) (fun _ _ => inputNeverWritten_of_loadEncLane) fun _ => ⟨_, rfl⟩
    | dec =>
      exact answer_afterLoad_collect (passesChecks_iff_checkError.mpr ⟨rfl, h⟩)
        (fun _ _ => laneWritten_of_loadDecLane) (fun _ _ => inputNeverWritten_of_loadDecLane)
        fun _ => finishDec_next s _

theorem exec_next_of_inputsWritten {i : Instr} {s : State} (h : inputsWritten i s) :
    ∃ t, exec i s = .next t := by
  have hanswer := exec_answer i s
  generalize exec i s = o at hanswer ⊢
  cases hanswer with
  | ended t => exact ⟨t, rfl⟩
  | refused sp j _ hj hnever => exact absurd hnever (not_inputNeverWritten_of_laneWritten (h j hj))

theorem exec_refused_of_inputNeverWritten {i : Instr} {s : State} {sp : Space} {j : Nat}
    (hchecks : passesChecks i s) (hj : j < (lengthN s).toNat) (hnever : inputNeverWritten i s sp j) :
    ∃ sp' j', exec i s = .refused (.neverWritten sp' j') := by
  have hanswer := exec_answer i s
  generalize exec i s = o at hanswer ⊢
  cases hanswer with
  | ended _ hwritten => exact absurd hnever (not_inputNeverWritten_of_laneWritten (hwritten hchecks j hj))
  | refused sp' j' => exact ⟨sp', j', rfl⟩

/-- Settles O10: the command cannot end, so it gives the other answer. -/
theorem neverWrittenInputIsRefused : Obligations.NeverWrittenInputIsRefused := by
  intro s i sp j hturn hbusy hdecode hchecks hj hnever
  rw [engineStepRunsTheLatchedCommand s i hturn hbusy hdecode]
  exact exec_refused_of_inputNeverWritten (s := dropTurn s) hchecks hj hnever

/-- Settles O9: of all moves only a latched command's run can be refused, and its answer names the element. -/
theorem stepRefusesOnlyNeverWrittenInputs : Obligations.StepRefusesOnlyNeverWrittenInputs := by
  intro s r h
  obtain ⟨hturn, hbusy, hstep⟩ | ⟨-, -, hstep⟩ | ⟨-, hstep⟩ | ⟨-, hstep⟩ := step_cases s
  · refine ⟨hturn, hbusy, ?_⟩
    rw [hstep] at h
    cases hdecode : decode (fetch s) with
    | error e => cases (runLatched_of_decode_error (s := dropTurn s) hdecode).symm.trans h
    | ok i =>
      have hanswer := exec_answer i (dropTurn s)
      rw [← runLatched_of_decode_ok (s := dropTurn s) hdecode, h] at hanswer
      cases hanswer with
      | refused sp j hchecks hj hnever => exact ⟨i, sp, j, rfl, hchecks, rfl, hj, hnever⟩
  · cases hstep.symm.trans h
  · cases hstep.symm.trans h
  · cases hstep.symm.trans h

/-! ### One engine step ends the command -/

theorem status_of_ending {s t : State} (h : Ending s t) :
    busy t = false ∧ (t.regs.status = statusDone ∨ t.regs.status = statusError) := by
  cases h with
  | done => exact ⟨busy_complete _, .inl rfl⟩
  | failed e => exact ⟨busy_raise e s, .inr rfl⟩

theorem runLatched_next_of_inputsWritten {s : State} (h : ∀ i, decode (fetch s) = .ok i → inputsWritten i s) :
    ∃ t, runLatched s = .next t := by
  cases hdecode : decode (fetch s) with
  | error e => exact ⟨_, runLatched_of_decode_error hdecode⟩
  | ok i =>
    rw [runLatched_of_decode_ok hdecode]
    exact exec_next_of_inputsWritten (h i hdecode)

/-- Settles O7: with its inputs written the command is not refused, and each of its endings clears `BUSY`. -/
theorem engineStepEndsTheCommand : Obligations.EngineStepEndsTheCommand := by
  intro s hturn hbusy hwritten
  obtain ⟨t, ht⟩ := runLatched_next_of_inputsWritten (s := dropTurn s) hwritten
  exact ⟨t, (step_of_engine_busy hturn hbusy).trans ht, status_of_ending (runLatched_ending ht)⟩

/-! ### A reset -/

theorem step_of_reset {s : State} (hturn : nextTurn s = .reset) : step s = .next (resetBlock (dropTurn s)) := by
  rw [step, hturn]

/-- Settles O35: the reset's move is `resetBlock`, whatever was running. -/
theorem resetEventAbandonsEverything : Obligations.ResetEventAbandonsEverything := by
  intro s hturn
  exact ⟨_, step_of_reset hturn, rfl, rfl, fun _ => ⟨rfl, rfl, rfl, rfl⟩, rfl, rfl⟩

/-! ### The end of a run -/

theorem nextTurn_of_schedule_nil {s : State} (h : s.host.schedule = []) :
    nextTurn s = if busy s then .engine else .host := by
  rw [nextTurn, h]

theorem dropTurn_of_schedule_nil {s : State} (h : s.host.schedule = []) : dropTurn s = s := by
  rw [dropTurn, h, List.tail_nil, ← h]

/-- Settles O51: the move is the host's, and it has nothing to do. -/
theorem endedRunRests : Obligations.EndedRunRests := by
  intro s ⟨hscript, hidle⟩ hschedule
  have hturn : nextTurn s = .host := by simp [nextTurn_of_schedule_nil hschedule, hidle]
  rw [step_of_host hturn, dropTurn_of_schedule_nil hschedule, hostTurn_nil hscript]

end Sys2Proof.Proofs.ResetAndHazards
